-- ==== Sys2Proof/Word.lean ====
section
/-! DEFINITION. The word types of the unit (spec/00_scope.md R9, R10) and the two-valued orientation (R20).
There are no signed values anywhere in the unit, and bit 0 is the least significant bit of every word. -/

namespace Sys2Proof

/-- `u16` of R10: the CRC register, polynomials, table entries, `RESULT`, `STATUS`. -/
abbrev U16 := BitVec 16

/-- `u8` of R10: one byte of `DATA`, and the 8-bit index of a table entry (R60). -/
abbrev Byte := BitVec 8

/-- The 64-bit command word `CW` (R90). -/
abbrev CmdWord := BitVec 64

/-- Orientation of a table (R20). -/
inductive Orientation where
  /-- MSB-first processing, shift left. -/
  | high
  /-- LSB-first processing, shift right. -/
  | low
deriving DecidableEq, Repr

end Sys2Proof
end

