-- ==== Sys2Proof/Config.lean ====
section
/-! DEFINITION. What the spec leaves to an implementation: the open parameters of spec/00_scope.md R6 and the free
value of an unwritten table entry. None of them has a body, so nothing can be proved of a value of theirs: a statement
that mentions one holds whatever it is. `BUS_MAP`, the fourth open parameter, has no counterpart here: no rule of the
spec depends on it (spec/93_implementation_defined.md U8). -/

namespace Sys2Proof

/-- `LEN_W` of R6, the width of `LEN` (open; U4). Only `WellFormed` speaks of it. DESIGN CHOICE, safe (log 7). -/
opaque Config.lenW : Nat

/-- `MAX_LEN = 2^LEN_W - 1` (R6, R61). -/
def Config.maxLen : Nat := 2 ^ Config.lenW - 1

/-- `SICK_CORE` of R6 on a buffer that is not empty (open; R8, R198, U2): an uninterpreted function of the data and the
initial value. DESIGN CHOICE, safe (log 5). -/
opaque Config.sickCoreOpen : List Byte → U16 → U16

/-- `IBM_ALT` of R6, the second table polynomial of the `IBM` command (open; R192, U3): an uninterpreted constant.
DESIGN CHOICE, safe (log 6). -/
opaque Config.ibmAlt : U16

/-- The value that the `n`-th read of an unwritten `TBL` entry finds (R36, R284, U1: some 16-bit value, none may be
assumed). DESIGN CHOICE, safe (log 3). -/
opaque Config.freeTbl : Nat → U16

end Sys2Proof
end

