-- ==== Sys2Proof/Syntax.lean ====
section
/-! DEFINITION. The eighteen commands of spec/30_encoding.md R100, one constructor each, with the operands their
formats name (R94 to R98) and, for the data commands, the buffer `DATA` (spec/20_memory.md R61: a model takes `DATA` as an
argument of the command, a list of bytes; `LEN` is its length).

The initial-value operand of a preset is `none` for `IO = 0` (the catalog's value) and `some v` for `IO = 1`: two words that
differ only in the `INIT` field of a preset with `IO = 0` are the same command (R97, R104; log 10). -/

namespace Sys2Proof

inductive Instr where
  /-- R131: bit reversal of `x`. -/
  | reflect16 (x : U16)
  /-- R141: build the table of `poly` in `TBL`. -/
  | table16 (poly : U16)
  /-- R156: the table-driven engine over `TBL`. -/
  | crctbl (o : Orientation) (init : U16) (data : List Byte)
  /-- R171: the bitwise engine. -/
  | hacker16 (poly init xorout : U16) (reflect : Bool) (data : List Byte)
  /-- R190. -/
  | modbus (init : Option U16) (data : List Byte)
  /-- R191. -/
  | usb16 (init : Option U16) (data : List Byte)
  /-- R192; `alt` is the `PS` bit. -/
  | ibm (init : Option U16) (alt : Bool) (data : List Byte)
  /-- R193. -/
  | xmodem (init : Option U16) (data : List Byte)
  /-- R194. -/
  | ccittFalse (init : Option U16) (data : List Byte)
  /-- R195. -/
  | kermit (init : Option U16) (data : List Byte)
  /-- R196. -/
  | mcrf4xx (init : Option U16) (data : List Byte)
  /-- R197. -/
  | x25 (init : Option U16) (data : List Byte)
  /-- R198. -/
  | sick (init : Option U16) (data : List Byte)
  /-- R199. -/
  | dnp (init : Option U16) (data : List Byte)
  /-- R200. -/
  | maxim16 (init : Option U16) (data : List Byte)
  /-- R201. -/
  | dect (init : Option U16) (data : List Byte)
  /-- R221: the Internet checksum. -/
  | inet (data : List Byte)
  /-- R236: the Fletcher-16 checksum. -/
  | fletcher16 (data : List Byte)
deriving DecidableEq, Repr

/-- The buffer a command is handed over with; empty for the two commands that take none (R94). -/
def Instr.data : Instr → List Byte
  | .reflect16 _ => []
  | .table16 _ => []
  | .crctbl _ _ d => d
  | .hacker16 _ _ _ _ d => d
  | .modbus _ d => d
  | .usb16 _ d => d
  | .ibm _ _ d => d
  | .xmodem _ d => d
  | .ccittFalse _ d => d
  | .kermit _ d => d
  | .mcrf4xx _ d => d
  | .x25 _ d => d
  | .sick _ d => d
  | .dnp _ d => d
  | .maxim16 _ d => d
  | .dect _ d => d
  | .inet d => d
  | .fletcher16 d => d

end Sys2Proof
end

