-- ==== Sys2Proof/Decode.lean ====
section
/-! DEFINITION. The command decoder (spec/30_encoding.md R90 to R104) and, after it, the encoder written from the same
fields. The decoder is total: every word with every buffer is a command or is rejected by the name of its error (R92). -/

namespace Sys2Proof

/-- The three ways the decoder rejects a command (spec/60_exceptions.md R251). -/
inductive CmdError where
  /-- `ERR_OPCODE`: the opcode is reserved (R102). -/
  | opcode
  /-- `ERR_FIELD`: an unused field or a reserved bit is not zero (R103). -/
  | field
  /-- `ERR_LEN`: data handed to a command that takes none (R92 step 3). -/
  | len
deriving DecidableEq, Repr

/-- The eighteen opcodes (R100). -/
inductive Op where
  | reflect16 | table16 | crctbl | hacker16
  | modbus | usb16 | ibm | xmodem | ccittFalse | kermit | mcrf4xx | x25 | sick | dnp | maxim16 | dect
  | inet | fletcher16
deriving DecidableEq, Repr

/-- The six formats (R93). -/
inductive Format where
  | v | e | b | p | pi | s
deriving DecidableEq, Repr

/-- R20: `HIGH = 0`, `LOW = 1`. -/
def Orientation.bit : Orientation → Bool
  | .high => false
  | .low => true

/-- R20, read back. -/
def Orientation.ofBit : Bool → Orientation
  | false => .high
  | true => .low

/-- Column `OP` of R100. -/
def Op.code : Op → BitVec 8
  | .reflect16 => 0x01#8
  | .table16 => 0x02#8
  | .crctbl => 0x03#8
  | .hacker16 => 0x04#8
  | .modbus => 0x10#8
  | .usb16 => 0x11#8
  | .ibm => 0x12#8
  | .xmodem => 0x13#8
  | .ccittFalse => 0x14#8
  | .kermit => 0x15#8
  | .mcrf4xx => 0x16#8
  | .x25 => 0x17#8
  | .sick => 0x18#8
  | .dnp => 0x19#8
  | .maxim16 => 0x1A#8
  | .dect => 0x1B#8
  | .inet => 0x20#8
  | .fletcher16 => 0x21#8

/-- Column "format" of R100. -/
def Op.format : Op → Format
  | .reflect16 => .v
  | .table16 => .v
  | .crctbl => .e
  | .hacker16 => .b
  | .modbus => .p
  | .usb16 => .p
  | .ibm => .pi
  | .xmodem => .p
  | .ccittFalse => .p
  | .kermit => .p
  | .mcrf4xx => .p
  | .x25 => .p
  | .sick => .p
  | .dnp => .p
  | .maxim16 => .p
  | .dect => .p
  | .inet => .s
  | .fletcher16 => .s

/-- Column `mask` of R93: the bits a legal word of the format has fixed. -/
def Format.mask : Format → CmdWord
  | .v => 0xFFFFFFFF0000FFFF#64
  | .e => 0xFFFF0000FFFFFDFF#64
  | .b => 0x000000000000FEFF#64
  | .p => 0xFFFF0000FFFFFBFF#64
  | .pi => 0xFFFF0000FFFFF3FF#64
  | .s => 0xFFFFFFFFFFFFFFFF#64

/-- Column "data" of R93: only format V takes none. -/
def Format.takesData : Format → Bool
  | .v => false
  | .e => true
  | .b => true
  | .p => true
  | .pi => true
  | .s => true

/-- Column `match` of R100: the opcode, every other bit zero. -/
def Op.matchWord (o : Op) : CmdWord := o.code.setWidth 64

/-- The opcodes in the order of R100. -/
def Op.all : List Op :=
  [.reflect16, .table16, .crctbl, .hacker16, .modbus, .usb16, .ibm, .xmodem, .ccittFalse, .kermit, .mcrf4xx, .x25,
    .sick, .dnp, .maxim16, .dect, .inet, .fletcher16]

/-- The opcode a code stands for; none for the 238 reserved values (R102). -/
def Op.ofCode (c : BitVec 8) : Option Op := Op.all.find? (fun o => o.code == c)

/-! The fields of the command word (R91), unsigned and taken as they stand (R99). -/

/-- `OP`, bits 7:0. -/
def CmdWord.op (cw : CmdWord) : BitVec 8 := cw.extractLsb' 0 8
/-- `RF`, bit 8. -/
def CmdWord.rf (cw : CmdWord) : Bool := cw.getLsbD 8
/-- `OR`, bit 9. -/
def CmdWord.or (cw : CmdWord) : Bool := cw.getLsbD 9
/-- `IO`, bit 10. -/
def CmdWord.io (cw : CmdWord) : Bool := cw.getLsbD 10
/-- `PS`, bit 11. -/
def CmdWord.ps (cw : CmdWord) : Bool := cw.getLsbD 11
/-- `POLY`, bits 31:16. -/
def CmdWord.poly (cw : CmdWord) : U16 := cw.extractLsb' 16 16
/-- `INIT`, bits 47:32. -/
def CmdWord.init (cw : CmdWord) : U16 := cw.extractLsb' 32 16
/-- `XOROUT`, bits 63:48. -/
def CmdWord.xorout (cw : CmdWord) : U16 := cw.extractLsb' 48 16

/-- The initial-value operand of a preset (R97): `INIT` when `IO = 1`, ignored when `IO = 0`. -/
def CmdWord.initOverride (cw : CmdWord) : Option U16 :=
  if CmdWord.io cw then some (CmdWord.init cw) else none

/-- The command an opcode makes of a legal word (R94 to R98). -/
def Op.instr (o : Op) (cw : CmdWord) (data : List Byte) : Instr :=
  match o with
  | .reflect16 => .reflect16 (CmdWord.poly cw)
  | .table16 => .table16 (CmdWord.poly cw)
  | .crctbl => .crctbl (Orientation.ofBit (CmdWord.or cw)) (CmdWord.init cw) data
  | .hacker16 => .hacker16 (CmdWord.poly cw) (CmdWord.init cw) (CmdWord.xorout cw) (CmdWord.rf cw) data
  | .modbus => .modbus (CmdWord.initOverride cw) data
  | .usb16 => .usb16 (CmdWord.initOverride cw) data
  | .ibm => .ibm (CmdWord.initOverride cw) (CmdWord.ps cw) data
  | .xmodem => .xmodem (CmdWord.initOverride cw) data
  | .ccittFalse => .ccittFalse (CmdWord.initOverride cw) data
  | .kermit => .kermit (CmdWord.initOverride cw) data
  | .mcrf4xx => .mcrf4xx (CmdWord.initOverride cw) data
  | .x25 => .x25 (CmdWord.initOverride cw) data
  | .sick => .sick (CmdWord.initOverride cw) data
  | .dnp => .dnp (CmdWord.initOverride cw) data
  | .maxim16 => .maxim16 (CmdWord.initOverride cw) data
  | .dect => .dect (CmdWord.initOverride cw) data
  | .inet => .inet data
  | .fletcher16 => .fletcher16 data

/-- Decoding, in the order of R92: opcode, then mask and match, then length. -/
def decode (cw : CmdWord) (data : List Byte) : Except CmdError Instr :=
  match Op.ofCode (CmdWord.op cw) with
  | none => .error .opcode
  | some o =>
    if cw &&& o.format.mask ≠ o.matchWord then .error .field
    else if o.format.takesData = false ∧ data ≠ [] then .error .len
    else .ok (o.instr cw data)

/-- A row of spec/opcode_table.json as the host hands it over: the word's bits, no data (`LEN = 0`; log 14). -/
def decodeTableWord (nbits w : Nat) : Option Instr :=
  match decode (BitVec.ofNat 64 (w % 2 ^ nbits)) [] with
  | .ok i => some i
  | .error _ => none

/-! The encoder. -/

/-- A word from its fields (R91), `RSV` zero. -/
def CmdWord.pack (op : BitVec 8) (rf or io ps : Bool) (poly init xorout : U16) : CmdWord :=
  op.setWidth 64 ||| ((BitVec.ofBool rf).setWidth 64 <<< 8) ||| ((BitVec.ofBool or).setWidth 64 <<< 9) |||
    ((BitVec.ofBool io).setWidth 64 <<< 10) ||| ((BitVec.ofBool ps).setWidth 64 <<< 11) |||
    (poly.setWidth 64 <<< 16) ||| (init.setWidth 64 <<< 32) ||| (xorout.setWidth 64 <<< 48)

/-- A word of format P or PI (R97); `INIT` is written zero when there is no override, as the assembler does. -/
def CmdWord.packPreset (o : Op) (init : Option U16) (ps : Bool) : CmdWord :=
  CmdWord.pack o.code false false init.isSome ps 0#16 (init.getD 0#16) 0#16

/-- The command word of a command (R91 to R98); its buffer is `Instr.data`. -/
def encode : Instr → CmdWord
  | .reflect16 x => CmdWord.pack Op.reflect16.code false false false false x 0#16 0#16
  | .table16 p => CmdWord.pack Op.table16.code false false false false p 0#16 0#16
  | .crctbl o init _ => CmdWord.pack Op.crctbl.code false o.bit false false 0#16 init 0#16
  | .hacker16 p init x r _ => CmdWord.pack Op.hacker16.code r false false false p init x
  | .modbus init _ => CmdWord.packPreset .modbus init false
  | .usb16 init _ => CmdWord.packPreset .usb16 init false
  | .ibm init ps _ => CmdWord.packPreset .ibm init ps
  | .xmodem init _ => CmdWord.packPreset .xmodem init false
  | .ccittFalse init _ => CmdWord.packPreset .ccittFalse init false
  | .kermit init _ => CmdWord.packPreset .kermit init false
  | .mcrf4xx init _ => CmdWord.packPreset .mcrf4xx init false
  | .x25 init _ => CmdWord.packPreset .x25 init false
  | .sick init _ => CmdWord.packPreset .sick init false
  | .dnp init _ => CmdWord.packPreset .dnp init false
  | .maxim16 init _ => CmdWord.packPreset .maxim16 init false
  | .dect init _ => CmdWord.packPreset .dect init false
  | .inet _ => CmdWord.pack Op.inet.code false false false false 0#16 0#16 0#16
  | .fletcher16 _ => CmdWord.pack Op.fletcher16.code false false false false 0#16 0#16 0#16

/-- The opcode of a command (R100). -/
def Instr.op : Instr → Op
  | .reflect16 _ => .reflect16
  | .table16 _ => .table16
  | .crctbl _ _ _ => .crctbl
  | .hacker16 _ _ _ _ _ => .hacker16
  | .modbus _ _ => .modbus
  | .usb16 _ _ => .usb16
  | .ibm _ _ _ => .ibm
  | .xmodem _ _ => .xmodem
  | .ccittFalse _ _ => .ccittFalse
  | .kermit _ _ => .kermit
  | .mcrf4xx _ _ => .mcrf4xx
  | .x25 _ _ => .x25
  | .sick _ _ => .sick
  | .dnp _ _ => .dnp
  | .maxim16 _ _ => .maxim16
  | .dect _ _ => .dect
  | .inet _ => .inet
  | .fletcher16 _ => .fletcher16

end Sys2Proof
end

