-- ==== Sys2Proof/Machine/Operands.lean ====
section
/-! DEFINITION. Operand forms and the bit primitives the engines share (spec/00_scope.md R12 to R15). -/

namespace Sys2Proof.Machine

/-- `b << 8` of R15: the byte in the high byte, low byte zero. -/
def byteHigh (b : Byte) : U16 := b.setWidth 16 <<< 8

/-- `zext_16(b)` of R10. -/
def byteLow (b : Byte) : U16 := b.setWidth 16

/-- One step against `p`, most significant bit first (R142, R170): the tested bit is bit 15 before the shift. -/
def shiftHigh (p w : U16) : U16 := if w.getLsbD 15 then (w <<< 1) ^^^ p else w <<< 1

/-- One step against `p`, least significant bit first (R143): the tested bit is bit 0 before the shift. -/
def shiftLow (p w : U16) : U16 := if w.getLsbD 0 then (w >>> 1) ^^^ p else w >>> 1

/-- The initial value of a preset (R187): the override when there is one (`IO = 1`), else the catalog's. -/
def initEff (override : Option U16) (cat : U16) : U16 := override.getD cat

end Sys2Proof.Machine
end

