-- ==== Sys2Proof/Machine/Flags.lean ====
section
/-! DEFINITION. The fields of `STATUS` (spec/10_state.md R33, R34): how each is read and how a command writes them. There is no
other flag (spec/00_scope.md R19). -/

namespace Sys2Proof.Machine

/-- `DONE`, bit 0. -/
def Status.done (st : U16) : Bool := st.getLsbD 0

/-- `ERR`, bits 3:1. -/
def Status.err (st : U16) : BitVec 3 := st.extractLsb' 1 3

/-- `TORIENT`, bit 4. -/
def Status.torient (st : U16) : Bool := st.getLsbD 4

/-- Bits 15:5, which read as zero (R33). -/
def Status.upper (st : U16) : BitVec 11 := st.extractLsb' 5 11

/-- The code `STATUS.ERR` gets for an error (spec/60_exceptions.md R251). -/
def errCode : CmdError → BitVec 3
  | .opcode => 1#3
  | .field => 2#3
  | .len => 3#3

/-- `STATUS` with `DONE` and `ERR` written, every other bit as it was. -/
def Status.withOutcome (st : U16) (done : Bool) (err : BitVec 3) : U16 :=
  (st &&& 0xFFF0#16) ||| (err.setWidth 16 <<< 1) ||| (BitVec.ofBool done).setWidth 16

/-- `STATUS` with `TORIENT` written, every other bit as it was. -/
def Status.withTorient (st : U16) (o : Orientation) : U16 :=
  (st &&& 0xFFEF#16) ||| ((BitVec.ofBool o.bit).setWidth 16 <<< 4)

end Sys2Proof.Machine
end

