-- ==== Sys2Proof/Machine/State.lean ====
section
/-! DEFINITION. The state of the unit (spec/10_state.md R32 to R36), the host actions (spec/20_memory.md R70 and, by register
number, spec/10_state.md R42), the reasons to stop, and the state after reset (R40, spec/70_reset_and_hazards.md R280). -/

namespace Sys2Proof.Machine

/-- The table buffer: the WRITTEN entries as (index, entry) pairs, indexes strictly rising and below 256 (`Memory.wf`
in `Ops.lean`). An index that is not listed is unwritten (R36). An entry is 16 bits, the smallest unit `TBL` is accessed by
(R68), and has no byte order (R66), so the cells are not split into bytes (log 8). -/
abbrev Memory := List (Nat × U16)

/-- What the host can do to the unit: the six actions of R70, and the reads and writes of R42 by register number. -/
inductive HostAction where
  /-- `H-RESET` (R280). -/
  | reset
  /-- `H-ISSUE`: one command word with its data; `LEN` is the length of the list. It is the write of register number 2
  (R42). -/
  | issue (cw : CmdWord) (data : List Byte)
  /-- `H-RDRES`. -/
  | rdRes
  /-- `H-RDSTAT`. -/
  | rdStat
  /-- `H-RDTBL(i)`. -/
  | rdTbl (i : Byte)
  /-- `H-WRTBL(i, v)`. -/
  | wrTbl (i : Byte) (v : U16)
  /-- A read of register number `n` (R42). -/
  | rdReg (n : Nat)
  /-- A write of a 16-bit value to register number `n` (R42). -/
  | wrReg (n : Nat) (v : U16)
deriving DecidableEq, Repr

/-- What marks a run as faulted. No step of the unit stops with a fault: the mark is kept in `State.runMark`. -/
inductive Fault where
  /-- Recorded by the read of `TBL` entry `i` (by `CRCTBL` or `H-RDTBL`) while it is unwritten (R36, R256 (a), R284, U1).
  The unit goes on with a free value, as the hardware does. Safe (log 3, 4). -/
  | unwrittenEntry (i : Byte)
deriving DecidableEq, Repr

/-- The reasons the model gives no meaning. -/
inductive Refusal where
  /-- Raised by an arm of `exec` whose instruction has no meaning yet; none is left. Safe. -/
  | notModelled (mnemonic : String)
  /-- Raised by a host write of a bare 16-bit value to the command port, register number 2: the port takes one whole command
  (R42, R68) and the spec gives no smaller write of it. Safe (log 11). -/
  | partialCommandWrite
deriving DecidableEq, Repr

structure State where
  /-- `RESULT` (R32). -/
  result : U16
  /-- `STATUS` (R33): `DONE` bit 0, `ERR` bits 3:1, `TORIENT` bit 4, bits 15:5 read as zero. -/
  status : U16
  /-- `TBL` (R36). -/
  tbl : Memory
  /-- The host's actions still to come, next first (R70, R72). The model's own (log 1). -/
  pending : List HostAction
  /-- What the last host action returned, column "returns" of R70. The model's own (log 2). -/
  returned : Option U16
  /-- How many unwritten entries have been read: the argument of the next free value. The model's own (log 3). -/
  freeCount : Nat
  /-- The first fault that marks this run, if any (R256 (a), U1). The model's own (log 4). -/
  runMark : Option Fault
deriving DecidableEq, Repr

/-- The machine right after reset (R40, R280): `RESULT` and `STATUS` zero, every entry of `TBL` unwritten, and the host has
not acted yet. -/
def State.reset : State where
  result := 0x0000#16
  status := 0x0000#16
  tbl := []
  pending := []
  returned := none
  freeCount := 0
  runMark := none

end Sys2Proof.Machine
end

