-- ==== Sys2Proof/Machine/Ops.lean ====
section
/-! DEFINITION. The named operations over the table buffer and the registers, the completion of a command, and the
rejection of one, which is the only exceptional event of the unit (spec/60_exceptions.md R250, R252). There is no return from a
rejection: nothing is saved and nothing is restored (R258, R259). -/

namespace Sys2Proof.Machine

/-- The entry at index `i`, none where it is unwritten. -/
def Memory.read? : Memory → Nat → Option U16
  | [], _ => none
  | (a, v) :: m, i => if a = i then some v else Memory.read? m i

/-- The buffer with entry `i` written, indexes kept rising. -/
def Memory.write : Memory → Nat → U16 → Memory
  | [], i, v => [(i, v)]
  | (a, w) :: m, i, v =>
    if i < a then (i, v) :: (a, w) :: m
    else if i = a then (i, v) :: m
    else (a, w) :: Memory.write m i v

/-- The buffer with all 256 entries written, entry `b` with `f b`. -/
def Memory.full (f : Byte → U16) : Memory := (List.range 256).map (fun b => (b, f (BitVec.ofNat 8 b)))

/-- Indexes strictly rising from `lo` on, and below 256. -/
def Memory.wfFrom : Nat → Memory → Bool
  | _, [] => true
  | lo, (a, _) :: m => decide (lo ≤ a) && decide (a < 256) && Memory.wfFrom (a + 1) m

/-- The canonical form: indexes strictly rising and below 256, so that equal buffers are equal lists. -/
def Memory.wf (m : Memory) : Bool := Memory.wfFrom 0 m

/-- Read `TBL[i]` (R36). An unwritten entry gives a free value, a fresh one at each read, and marks the run (R256 (a), R284,
U1; log 3, 4). -/
def readTbl (i : Byte) (s : State) : U16 × State :=
  match Memory.read? s.tbl i.toNat with
  | some v => (v, s)
  | none =>
    (Config.freeTbl s.freeCount,
      { s with freeCount := s.freeCount + 1, runMark := s.runMark.or (some (.unwrittenEntry i)) })

/-- Write `TBL[i]`; the entry counts as written, nothing else changes (R70). -/
def writeTbl (i : Byte) (v : U16) (s : State) : State :=
  { s with tbl := Memory.write s.tbl i.toNat v }

/-- Write all 256 entries of `TBL` (R141). -/
def writeAllTbl (f : Byte → U16) (s : State) : State := { s with tbl := Memory.full f }

/-- `DONE <- 1`, `ERR <- 0`: what every successful command writes (R34). -/
def setDone (s : State) : State := { s with status := Status.withOutcome s.status true 0#3 }

/-- A command that produces a scalar completes: `RESULT <- v`, `DONE <- 1`, `ERR <- 0` (R32, R34, R41). -/
def finish (v : U16) (s : State) : Host.Outcome State Fault Refusal :=
  .next (setDone { s with result := v })

/-- `raise Err(code)` (R252): `DONE <- 0`, `ERR <- code`, and nothing else changes. -/
def raiseErr (e : CmdError) (s : State) : State :=
  { s with status := Status.withOutcome s.status false (errCode e) }

end Sys2Proof.Machine
end

