-- ==== Sys2Proof/Machine/Reflect.lean ====
section
/-! DEFINITION. The bit-reflection unit (spec/40_reflect.md R130, R131). -/

namespace Sys2Proof.Machine

/-- R130, R131: `r[15 - i] <- x[i]` for `i` in 0 to 15, from `r = 0`. -/
def reflect16 (x : U16) : U16 :=
  (List.range 16).foldl (fun r i => if x.getLsbD i then r ||| (1#16 <<< (15 - i)) else r) 0#16

/-- `REFLECT16` (R131). -/
def execReflect16 (x : U16) (s : State) : Host.Outcome State Fault Refusal := finish (reflect16 x) s

end Sys2Proof.Machine
end

