-- ==== Sys2Proof/Machine/Bitwise.lean ====
section
/-! DEFINITION. The bitwise engine (spec/43_bitwise_engine.md R170 to R173). -/

namespace Sys2Proof.Machine

/-- One byte of the bitwise engine (R170): into the high byte, then eight steps. -/
def bitwiseStep (p reg : U16) (b : Byte) : U16 := Nat.iterate (shiftHigh p) 8 (reg ^^^ byteHigh b)

/-- The polynomial in effect (R170, R172): the flag reflects the polynomial and nothing else. -/
def effectivePoly (poly : U16) (reflect : Bool) : U16 := if reflect then reflect16 poly else poly

/-- `crc_bitwise(DATA, polynomial, init, reflect)` (R170). -/
def crcBitwise (data : List Byte) (poly init : U16) (reflect : Bool) : U16 :=
  data.foldl (bitwiseStep (effectivePoly poly reflect)) init

/-- `HACKER16` (R171, R173): the final XOR once, after the last byte. -/
def execHacker16 (poly init xorout : U16) (reflect : Bool) (data : List Byte) (s : State) :
    Host.Outcome State Fault Refusal :=
  finish (crcBitwise data poly init reflect ^^^ xorout) s

end Sys2Proof.Machine
end

