-- ==== Sys2Proof/Machine/Fletcher.lean ====
section
/-! DEFINITION. The Fletcher-16 engine (spec/46_fletcher16.md R235 to R237). -/

namespace Sys2Proof.Machine

/-- One byte (R235): the new `SUM1` is what is added to `SUM2`; both additions are exact before `mod 255` (R237). -/
def fletcherStep (sums : Nat × Nat) (b : Byte) : Nat × Nat :=
  let sum1 := (sums.1 + b.toNat) % 255
  (sum1, (sums.2 + sum1) % 255)

/-- `(SUM1, SUM2)` after the data. -/
def fletcherSums (data : List Byte) : Nat × Nat := data.foldl fletcherStep (0, 0)

/-- `fletcher16` (R235): `SUM2` in the high byte, `SUM1` in the low byte. -/
def fletcher16 (data : List Byte) : U16 :=
  BitVec.ofNat 16 ((fletcherSums data).2 * 256 + (fletcherSums data).1)

/-- `FLETCHER16` (R236). -/
def execFletcher16 (data : List Byte) (s : State) : Host.Outcome State Fault Refusal := finish (fletcher16 data) s

end Sys2Proof.Machine
end

