-- ==== Sys2Proof/Machine/Internet.lean ====
section
/-! DEFINITION. The Internet checksum engine (spec/45_internet.md R220 to R225). -/

namespace Sys2Proof.Machine

/-- `ACC` of R220, exact (R222): the sum of the big-endian 16-bit words; an odd last byte is a high byte (R64). -/
def wordSum : List Byte → Nat
  | [] => 0
  | [b] => b.toNat * 256
  | hi :: lo :: rest => (hi.toNat * 256 + lo.toNat) + wordSum rest

/-- The loop of `fold16` (R18) with at most `fuel` rounds. -/
def foldRounds : Nat → Nat → Nat
  | 0, n => n
  | fuel + 1, n => if n < 65536 then n else foldRounds fuel (n % 65536 + n / 65536)

/-- `fold16` (R18): each round strictly decreases its number, so as many rounds as the number itself are enough. -/
def fold16 (n : Nat) : U16 := BitVec.ofNat 16 (foldRounds n n)

/-- `checksum_internet` (R220): the one's complement of the folded sum. -/
def checksumInternet (data : List Byte) : U16 := fold16 (wordSum data) ^^^ 0xFFFF#16

/-- `INET` (R221). -/
def execInet (data : List Byte) (s : State) : Host.Outcome State Fault Refusal := finish (checksumInternet data) s

end Sys2Proof.Machine
end

