-- ==== Sys2Proof/Machine/TableBuilder.lean ====
section
/-! DEFINITION. The table generator (spec/41_table_builder.md R140 to R148). -/

namespace Sys2Proof.Machine

/-- R140: `LOW` when the top bit of the polynomial is set, `HIGH` when it is clear. -/
def orientOf (p : U16) : Orientation := Orientation.ofBit (p.getLsbD 15)

/-- R142. -/
def highEntry (p : U16) (b : Byte) : U16 := Nat.iterate (shiftHigh p) 8 (byteHigh b)

/-- R143. -/
def lowEntry (p : U16) (b : Byte) : U16 := Nat.iterate (shiftLow p) 8 (byteLow b)

/-- The entry of the table of `p` in orientation `o` (R141). -/
def tableEntry (o : Orientation) (p : U16) (b : Byte) : U16 :=
  match o with
  | .high => highEntry p b
  | .low => lowEntry p b

/-- `TABLE16` (R141): all 256 entries, `TORIENT`, `DONE` and `ERR`; `RESULT` is not written. -/
def execTable16 (p : U16) (s : State) : Host.Outcome State Fault Refusal :=
  let o := orientOf p
  let s' := writeAllTbl (tableEntry o p) s
  .next (setDone { s' with status := Status.withTorient s'.status o })

end Sys2Proof.Machine
end

