-- ==== Sys2Proof/Machine/TableEngine.lean ====
section
/-! DEFINITION. The table-driven engine (spec/42_table_engine.md R155 to R159): on a constant table (the presets) and on `TBL`
(`CRCTBL`). -/

namespace Sys2Proof.Machine

/-- The index of the entry a step looks up (R157, R158); it is a byte whatever the register is (R159). -/
def crcIndex (o : Orientation) (reg : U16) (b : Byte) : Byte :=
  match o with
  | .low => ((reg ^^^ byteLow b) &&& 0x00FF#16).setWidth 8
  | .high => (((reg >>> 8) ^^^ byteLow b) &&& 0x00FF#16).setWidth 8

/-- The register after a step that found `entry` (R157, R158). -/
def crcUpdate (o : Orientation) (reg entry : U16) : U16 :=
  match o with
  | .low => entry ^^^ (reg >>> 8)
  | .high => (reg <<< 8) ^^^ entry

/-- `low_step` and `high_step` on a table (R157, R158). -/
def crcStep (t : Byte → U16) (o : Orientation) (reg : U16) (b : Byte) : U16 :=
  crcUpdate o reg (t (crcIndex o reg b))

/-- `crc_table(DATA, T, o, init)` (R155) on a table all of whose entries are known. -/
def crcTable (t : Byte → U16) (o : Orientation) (init : U16) (data : List Byte) : U16 :=
  data.foldl (crcStep t o) init

/-- The same loop on the table buffer, one `readTbl` a byte (R156). -/
def crcTbl (o : Orientation) : List Byte → U16 → State → U16 × State
  | [], reg, s => (reg, s)
  | b :: bs, reg, s =>
    let r := readTbl (crcIndex o reg b) s
    crcTbl o bs (crcUpdate o reg r.1) r.2

/-- `CRCTBL` (R156). -/
def execCrctbl (o : Orientation) (init : U16) (data : List Byte) (s : State) : Host.Outcome State Fault Refusal :=
  let r := crcTbl o data init s
  finish r.1 r.2

end Sys2Proof.Machine
end

