-- ==== Sys2Proof/Machine/Presets.lean ====
section
/-! DEFINITION. The preset catalog and the twelve preset commands (spec/44_presets.md R185 to R205). The catalog and the preset
tables are constants (spec/10_state.md R37): no command reads or writes `TBL` here. -/

namespace Sys2Proof.Machine

/-- What computes a preset before its xorout: the table-driven engine on a preset table, or the open `SICK_CORE`. -/
inductive PresetEngine where
  /-- The preset table of a table polynomial in an orientation (R186, R148). -/
  | table (poly : U16) (o : Orientation)
  /-- `SICK_CORE` (R198). -/
  | sickCore
deriving DecidableEq, Repr

/-- A row of the catalog (R186). The normal form of the polynomial is a label: no command uses it (R185). -/
structure CatRow where
  normal : U16
  engine : PresetEngine
  init : U16
  xorout : U16
deriving DecidableEq, Repr

/-- Row 0 of R186. -/
def catModbus : CatRow := ⟨0x8005#16, .table 0xA001#16 .low, 0xFFFF#16, 0x0000#16⟩
/-- Row 1. -/
def catUsb16 : CatRow := ⟨0x8005#16, .table 0xA001#16 .low, 0xFFFF#16, 0xFFFF#16⟩
/-- Row 2. -/
def catIbm : CatRow := ⟨0x8005#16, .table 0xA001#16 .low, 0x0000#16, 0x0000#16⟩
/-- Row 3. -/
def catXmodem : CatRow := ⟨0x1021#16, .table 0x1021#16 .high, 0x0000#16, 0x0000#16⟩
/-- Row 4. -/
def catCcittFalse : CatRow := ⟨0x1021#16, .table 0x1021#16 .high, 0xFFFF#16, 0x0000#16⟩
/-- Row 5. -/
def catKermit : CatRow := ⟨0x1021#16, .table 0x8408#16 .low, 0x0000#16, 0x0000#16⟩
/-- Row 6. -/
def catMcrf4xx : CatRow := ⟨0x1021#16, .table 0x8408#16 .low, 0xFFFF#16, 0x0000#16⟩
/-- Row 7. -/
def catX25 : CatRow := ⟨0x1021#16, .table 0x8408#16 .low, 0xFFFF#16, 0xFFFF#16⟩
/-- Row 8. -/
def catSick : CatRow := ⟨0x8005#16, .sickCore, 0x0000#16, 0x0000#16⟩
/-- Row 9. -/
def catDnp : CatRow := ⟨0x3D65#16, .table 0xA6BC#16 .low, 0x0000#16, 0xFFFF#16⟩
/-- Row 10. -/
def catMaxim16 : CatRow := ⟨0x8005#16, .table 0xA001#16 .low, 0x0000#16, 0xFFFF#16⟩
/-- Row 11. -/
def catDect : CatRow := ⟨0x0589#16, .table 0x91A0#16 .low, 0x0000#16, 0x0000#16⟩

/-- The catalog `CAT`, row by row (R186); the opcode of row `k` is `0x10 + k` (R101). -/
def catalog : List CatRow :=
  [catModbus, catUsb16, catIbm, catXmodem, catCcittFalse, catKermit, catMcrf4xx, catX25, catSick, catDnp, catMaxim16,
    catDect]

/-- `SICK_CORE` (R6): `init` on the empty buffer (R8), and otherwise whatever the open parameter gives (log 5). -/
def sickCore (data : List Byte) (init : U16) : U16 :=
  match data with
  | [] => init
  | b :: bs => Config.sickCoreOpen (b :: bs) init

/-- The engine of a row over the data (R187, R198). The preset table of a polynomial is what `TABLE16` builds of it
(R148). -/
def runEngine (e : PresetEngine) (data : List Byte) (init : U16) : U16 :=
  match e with
  | .table p o => crcTable (tableEntry o p) o init data
  | .sickCore => sickCore data init

/-- The common semantics of a preset (R187). -/
def runPreset (row : CatRow) (init : Option U16) (data : List Byte) (s : State) : Host.Outcome State Fault Refusal :=
  finish (runEngine row.engine data (initEff init row.init) ^^^ row.xorout) s

/-- The row `IBM` uses (R192): the catalog's, or with `PS = 1` the same with the table of `IBM_ALT` in the orientation that
follows from it (R6; log 6). -/
def ibmRow (alt : Bool) : CatRow :=
  if alt then { catIbm with engine := .table Config.ibmAlt (orientOf Config.ibmAlt) } else catIbm

/-- `MODBUS` (R190). -/
def execModbus (init : Option U16) (data : List Byte) (s : State) : Host.Outcome State Fault Refusal :=
  runPreset catModbus init data s

/-- `USB16` (R191). -/
def execUsb16 (init : Option U16) (data : List Byte) (s : State) : Host.Outcome State Fault Refusal :=
  runPreset catUsb16 init data s

/-- `IBM` (R192). -/
def execIbm (init : Option U16) (alt : Bool) (data : List Byte) (s : State) : Host.Outcome State Fault Refusal :=
  runPreset (ibmRow alt) init data s

/-- `XMODEM` (R193). -/
def execXmodem (init : Option U16) (data : List Byte) (s : State) : Host.Outcome State Fault Refusal :=
  runPreset catXmodem init data s

/-- `CCITT_FALSE` (R194). -/
def execCcittFalse (init : Option U16) (data : List Byte) (s : State) : Host.Outcome State Fault Refusal :=
  runPreset catCcittFalse init data s

/-- `KERMIT` (R195). -/
def execKermit (init : Option U16) (data : List Byte) (s : State) : Host.Outcome State Fault Refusal :=
  runPreset catKermit init data s

/-- `MCRF4XX` (R196). -/
def execMcrf4xx (init : Option U16) (data : List Byte) (s : State) : Host.Outcome State Fault Refusal :=
  runPreset catMcrf4xx init data s

/-- `X25` (R197). -/
def execX25 (init : Option U16) (data : List Byte) (s : State) : Host.Outcome State Fault Refusal :=
  runPreset catX25 init data s

/-- `SICK` (R198). -/
def execSick (init : Option U16) (data : List Byte) (s : State) : Host.Outcome State Fault Refusal :=
  runPreset catSick init data s

/-- `DNP` (R199). -/
def execDnp (init : Option U16) (data : List Byte) (s : State) : Host.Outcome State Fault Refusal :=
  runPreset catDnp init data s

/-- `MAXIM16` (R200). -/
def execMaxim16 (init : Option U16) (data : List Byte) (s : State) : Host.Outcome State Fault Refusal :=
  runPreset catMaxim16 init data s

/-- `DECT` (R201). -/
def execDect (init : Option U16) (data : List Byte) (s : State) : Host.Outcome State Fault Refusal :=
  runPreset catDect init data s

end Sys2Proof.Machine
end

