-- ==== Sys2Proof/Machine/Dispatch.lean ====
section
/-! DEFINITION. One arm per command: the effect of a command that has passed the decoder. -/

namespace Sys2Proof.Machine

def exec (i : Instr) (s : State) : Host.Outcome State Fault Refusal :=
  match i with
  | .reflect16 x => Sys2Proof.Machine.execReflect16 x s
  | .table16 p => Sys2Proof.Machine.execTable16 p s
  | .crctbl o init data => Sys2Proof.Machine.execCrctbl o init data s
  | .hacker16 p init x r data => Sys2Proof.Machine.execHacker16 p init x r data s
  | .modbus init data => Sys2Proof.Machine.execModbus init data s
  | .usb16 init data => Sys2Proof.Machine.execUsb16 init data s
  | .ibm init alt data => Sys2Proof.Machine.execIbm init alt data s
  | .xmodem init data => Sys2Proof.Machine.execXmodem init data s
  | .ccittFalse init data => Sys2Proof.Machine.execCcittFalse init data s
  | .kermit init data => Sys2Proof.Machine.execKermit init data s
  | .mcrf4xx init data => Sys2Proof.Machine.execMcrf4xx init data s
  | .x25 init data => Sys2Proof.Machine.execX25 init data s
  | .sick init data => Sys2Proof.Machine.execSick init data s
  | .dnp init data => Sys2Proof.Machine.execDnp init data s
  | .maxim16 init data => Sys2Proof.Machine.execMaxim16 init data s
  | .dect init data => Sys2Proof.Machine.execDect init data s
  | .inet data => Sys2Proof.Machine.execInet data s
  | .fletcher16 data => Sys2Proof.Machine.execFletcher16 data s

end Sys2Proof.Machine
end

