-- ==== Sys2Proof/Machine/HostActions.lean ====
section
/-! DEFINITION. What each host action does (spec/20_memory.md R70) and the register space (spec/10_state.md R42). -/

namespace Sys2Proof.Machine

/-- What a register number names (R42). -/
inductive RegName where
  | result
  | status
  | commandPort
  | tbl (i : Byte)
  | reserved
deriving DecidableEq, Repr

/-- The register map of R42. -/
def regOf (n : Nat) : RegName :=
  if n = 0 then .result
  else if n = 1 then .status
  else if n = 2 then .commandPort
  else if 0x100 ≤ n ∧ n ≤ 0x1FF then .tbl (BitVec.ofNat 8 (n - 0x100))
  else .reserved

/-- `H-RESET` (R280): every piece of the unit's state to its reset value. What the host still means to do, the count of free
values and the mark on the run are the model's own and stay (log 4, 16). -/
def hReset (s : State) : State :=
  { s with result := State.reset.result, status := State.reset.status, tbl := State.reset.tbl }

/-- `H-ISSUE` (R92): decode, then execute or reject. -/
def hIssue (cw : CmdWord) (data : List Byte) (s : State) : Host.Outcome State Fault Refusal :=
  match decode cw data with
  | .ok i => exec i s
  | .error e => .next (raiseErr e s)

/-- A value handed back to the host. -/
def hReturn (v : U16) (s : State) : State := { s with returned := some v }

/-- `H-RDTBL(i)`: `TBL[i]`, any value if it is unwritten (R70, R284). -/
def hRdTbl (i : Byte) (s : State) : State :=
  let r := readTbl i s
  hReturn r.1 r.2

/-- A read by register number (R42): zero from the command port and from a reserved number. -/
def hRdReg (n : Nat) (s : State) : State :=
  match regOf n with
  | .result => hReturn s.result s
  | .status => hReturn s.status s
  | .commandPort => hReturn 0x0000#16 s
  | .tbl i => hRdTbl i s
  | .reserved => hReturn 0x0000#16 s

/-- A 16-bit write by register number (R42): ignored for `RESULT`, `STATUS` and the reserved numbers (R32, R33). The command
port takes a whole command, which is `H-ISSUE`, so a bare 16-bit value is refused (log 11). -/
def hWrReg (n : Nat) (v : U16) (s : State) : Host.Outcome State Fault Refusal :=
  match regOf n with
  | .result => .next s
  | .status => .next s
  | .commandPort => .refused .partialCommandWrite
  | .tbl i => .next (writeTbl i v s)
  | .reserved => .next s

/-- One host action (R70). -/
def hostAct (a : HostAction) (s : State) : Host.Outcome State Fault Refusal :=
  match a with
  | .reset => .next (hReset s)
  | .issue cw data => hIssue cw data s
  | .rdRes => .next (hReturn s.result s)
  | .rdStat => .next (hReturn s.status s)
  | .rdTbl i => .next (hRdTbl i s)
  | .wrTbl i v => .next (writeTbl i v s)
  | .rdReg n => .next (hRdReg n s)
  | .wrReg n v => hWrReg n v s

/-- The host's next action is taken off its list, and nothing has been returned for it yet. -/
def takeAction (rest : List HostAction) (s : State) : State := { s with pending := rest, returned := none }

/-- The command word of the low `nbits` bits of `w`, as the host of the pipeline hands a table row over. -/
def wordOfBits (nbits w : Nat) : CmdWord := BitVec.ofNat 64 (w % 2 ^ nbits)

end Sys2Proof.Machine
end

