-- ==== Sys2Proof/Machine/Step.lean ====
section
/-! DEFINITION. One step: the host's next action, performed whole (spec/00_scope.md R4, spec/20_memory.md R72). With no action to
come the unit is idle and nothing changes (spec/70_reset_and_hazards.md R280, spec/60_exceptions.md R263; log 1). -/

namespace Sys2Proof.Machine

def step (s : State) : Host.Outcome State Fault Refusal :=
  match s.pending with
  | [] => .next s
  | a :: rest => hostAct a (takeAction rest s)

/-- The state in which the host's very next action hands over the command word `w`, with no data. There is no instruction
fetch (R31): a command is delivered by the host, so this is where a command comes from (log 1, 14). -/
def State.withFetchWord (s : State) (nbits w : Nat) : State :=
  { s with pending := .issue (wordOfBits nbits w) [] :: s.pending }

end Sys2Proof.Machine
end

