-- ==== Sys2Proof/Machine/Asm.lean ====
section
/-! DEFINITION. The assembler syntax of spec/30_encoding.md R105 to R107: a line of text gives one command word and its data.
It is no part of the machine's step: what it gives, the host hands over with `H-ISSUE`, and the decoder judges it (a `REFLECT16`
line with data assembles, and the unit rejects it with `ERR_LEN`). Text is a list of characters. What R105 leaves open (blank
space, repeated operands, letter case of hexadecimal digits) is DESIGN CHOICE, unsafe (log 18), and so are the defaults of `CRCBIT`
(log 20) and the value forms of `or` and `reflect` (log 21). -/

namespace Sys2Proof.Machine

/-- What a line may begin with: a command of R100 or a pseudo-instruction of R107. -/
inductive AsmName where
  | op (o : Op)
  | crcbit
  | buildTable
  | ccitt
  | checksumInternet
  | udp
  | tcp
  | checksumFletcher16
deriving DecidableEq, Repr

/-- The named operands of R106. -/
inductive AsmOperand where
  | x | poly | init | xorout | or | reflect | alt
deriving DecidableEq, Repr

/-- The operands of a line, in any order, each with its value as a number. -/
abbrev AsmOperands := List (AsmOperand × Nat)

/-- Column "operands" of R106 (and of the expansions of R107). -/
def AsmName.operands : AsmName → List AsmOperand
  | .op .reflect16 => [.x]
  | .op .table16 => [.poly]
  | .op .crctbl => [.or, .init]
  | .op .hacker16 => [.poly, .init, .xorout, .reflect]
  | .op .ibm => [.init, .alt]
  | .op .inet => []
  | .op .fletcher16 => []
  | .op .modbus => [.init]
  | .op .usb16 => [.init]
  | .op .xmodem => [.init]
  | .op .ccittFalse => [.init]
  | .op .kermit => [.init]
  | .op .mcrf4xx => [.init]
  | .op .x25 => [.init]
  | .op .sick => [.init]
  | .op .dnp => [.init]
  | .op .maxim16 => [.init]
  | .op .dect => [.init]
  | .crcbit => [.poly, .init, .reflect]
  | .buildTable => [.poly]
  | .ccitt => [.init]
  | .checksumInternet => []
  | .udp => []
  | .tcp => []
  | .checksumFletcher16 => []

/-- The command a pseudo-instruction expands to (R107); a command stands for itself. -/
def AsmName.expand : AsmName → Op
  | .op o => o
  | .crcbit => .hacker16
  | .buildTable => .table16
  | .ccitt => .kermit
  | .checksumInternet => .inet
  | .udp => .inet
  | .tcp => .inet
  | .checksumFletcher16 => .fletcher16

/-- The value of an operand, none where it is left out. -/
def asmGet (ops : AsmOperands) (n : AsmOperand) : Option Nat :=
  (ops.find? (fun p => decide (p.1 = n))).map Prod.snd

/-- A 16-bit operand that may be left out. -/
def asmGet16 (ops : AsmOperands) (n : AsmOperand) : Option U16 := (asmGet ops n).map (BitVec.ofNat 16)

/-- A one-bit operand with its default. -/
def asmFlag (ops : AsmOperands) (n : AsmOperand) : Bool := (asmGet ops n).getD 0 == 1

/-- The command of a line, its defaults filled in (R106); none where a required operand is missing. The data is not part of
the word. A pseudo-instruction comes here as the command it expands to, so a `CRCBIT` with `poly`, `init` or `reflect` left out
gets the defaults of `HACKER16`: R107 shows all three as given, and R106 gives `CRCBIT` no defaults. DESIGN CHOICE, unsafe
(log 20). -/
def asmInstr (o : Op) (ops : AsmOperands) : Option Instr :=
  match o with
  | .reflect16 => (asmGet16 ops .x).map .reflect16
  | .table16 => (asmGet16 ops .poly).map .table16
  | .crctbl =>
    match asmGet ops .or, asmGet16 ops .init with
    | some r, some i => some (.crctbl (Orientation.ofBit (r == 1)) i [])
    | _, _ => none
  | .hacker16 =>
    some (.hacker16 ((asmGet16 ops .poly).getD 0x1021#16) ((asmGet16 ops .init).getD 0xFFFF#16)
      ((asmGet16 ops .xorout).getD 0x0000#16) (asmFlag ops .reflect) [])
  | .modbus => some (.modbus (asmGet16 ops .init) [])
  | .usb16 => some (.usb16 (asmGet16 ops .init) [])
  | .ibm => some (.ibm (asmGet16 ops .init) (asmFlag ops .alt) [])
  | .xmodem => some (.xmodem (asmGet16 ops .init) [])
  | .ccittFalse => some (.ccittFalse (asmGet16 ops .init) [])
  | .kermit => some (.kermit (asmGet16 ops .init) [])
  | .mcrf4xx => some (.mcrf4xx (asmGet16 ops .init) [])
  | .x25 => some (.x25 (asmGet16 ops .init) [])
  | .sick => some (.sick (asmGet16 ops .init) [])
  | .dnp => some (.dnp (asmGet16 ops .init) [])
  | .maxim16 => some (.maxim16 (asmGet16 ops .init) [])
  | .dect => some (.dect (asmGet16 ops .init) [])
  | .inet => some (.inet [])
  | .fletcher16 => some (.fletcher16 [])

/-- The word of a line: every operand allowed for its name, none given twice, the required ones present (R106). -/
def asmWord (name : AsmName) (ops : AsmOperands) : Option CmdWord :=
  if (ops.map Prod.fst).all (fun n => name.operands.contains n) && decide (ops.map Prod.fst).Nodup then
    (asmInstr name.expand ops).map encode
  else none

/-! The text of a line (R105). -/

/-- The first characters up to a separator, and what follows it, if the separator stands. -/
def cutAt (sep : Char) : List Char → List Char × Option (List Char)
  | [] => ([], none)
  | c :: cs =>
    if c = sep then ([], some cs)
    else
      let r := cutAt sep cs
      (c :: r.1, r.2)

/-- The pieces between separators. -/
def cutAll (sep : Char) : List Char → List (List Char)
  | [] => [[]]
  | c :: cs =>
    if c = sep then [] :: cutAll sep cs
    else
      match cutAll sep cs with
      | [] => [[c]]
      | p :: ps => (c :: p) :: ps

/-- Without blanks at either end. -/
def trimText (t : List Char) : List Char :=
  ((t.dropWhile (· == ' ')).reverse.dropWhile (· == ' ')).reverse

/-- A hexadecimal digit of either case. -/
def hexDigit (c : Char) : Option Nat :=
  let n := c.toNat
  if 48 ≤ n ∧ n ≤ 57 then some (n - 48)
  else if 65 ≤ n ∧ n ≤ 70 then some (n - 55)
  else if 97 ≤ n ∧ n ≤ 102 then some (n - 87)
  else none

/-- Digits in a base, from the value so far. -/
def digits (base : Nat) : List Char → Nat → Option Nat
  | [], acc => some acc
  | c :: cs, acc =>
    match hexDigit c with
    | some d => if d < base then digits base cs (acc * base + d) else none
    | none => none

/-- A hexadecimal (`0x...`) or decimal number. -/
def asmNumber : List Char → Option Nat
  | [] => none
  | ['0', 'x'] => none
  | '0' :: 'x' :: ds => digits 16 ds 0
  | ds => digits 10 ds 0

/-- The value of an operand (R105): `HIGH` or `LOW` for `or`, `0`, `1`, `false` or `true` for `reflect`, a number that is 0 or 1
for `alt`, a 16-bit number for the others. R105's list of value forms does not say whether the forms it names for `or` and
`reflect` stand beside the numbers or in their place: here they stand in their place, so `or=0`, `or=1` and another spelling of
`reflect`'s digit (`reflect=0x1`, `reflect=01`) are no values. DESIGN CHOICE, unsafe (log 21). -/
def asmValue (n : AsmOperand) (t : List Char) : Option Nat :=
  match n with
  | .or => if t = ['H', 'I', 'G', 'H'] then some 0 else if t = ['L', 'O', 'W'] then some 1 else none
  | .reflect =>
    if t = ['0'] ∨ t = ['f', 'a', 'l', 's', 'e'] then some 0
    else if t = ['1'] ∨ t = ['t', 'r', 'u', 'e'] then some 1 else none
  | .alt => (asmNumber t).filter (· < 2)
  | .x => (asmNumber t).filter (· < 65536)
  | .poly => (asmNumber t).filter (· < 65536)
  | .init => (asmNumber t).filter (· < 65536)
  | .xorout => (asmNumber t).filter (· < 65536)

/-- The operand names. -/
def asmOperandNames : List (List Char × AsmOperand) :=
  [(['x'], .x), (['p', 'o', 'l', 'y'], .poly), (['i', 'n', 'i', 't'], .init), (['x', 'o', 'r', 'o', 'u', 't'], .xorout),
    (['o', 'r'], .or), (['r', 'e', 'f', 'l', 'e', 'c', 't'], .reflect), (['a', 'l', 't'], .alt)]

/-- The names of the commands (R100). -/
def asmOpNames : List (List Char × AsmName) :=
  [(['R', 'E', 'F', 'L', 'E', 'C', 'T', '1', '6'], .op .reflect16), (['T', 'A', 'B', 'L', 'E', '1', '6'], .op .table16),
    (['C', 'R', 'C', 'T', 'B', 'L'], .op .crctbl), (['H', 'A', 'C', 'K', 'E', 'R', '1', '6'], .op .hacker16),
    (['M', 'O', 'D', 'B', 'U', 'S'], .op .modbus), (['U', 'S', 'B', '1', '6'], .op .usb16), (['I', 'B', 'M'], .op .ibm),
    (['X', 'M', 'O', 'D', 'E', 'M'], .op .xmodem),
    (['C', 'C', 'I', 'T', 'T', '_', 'F', 'A', 'L', 'S', 'E'], .op .ccittFalse),
    (['K', 'E', 'R', 'M', 'I', 'T'], .op .kermit), (['M', 'C', 'R', 'F', '4', 'X', 'X'], .op .mcrf4xx),
    (['X', '2', '5'], .op .x25), (['S', 'I', 'C', 'K'], .op .sick), (['D', 'N', 'P'], .op .dnp),
    (['M', 'A', 'X', 'I', 'M', '1', '6'], .op .maxim16), (['D', 'E', 'C', 'T'], .op .dect),
    (['I', 'N', 'E', 'T'], .op .inet), (['F', 'L', 'E', 'T', 'C', 'H', 'E', 'R', '1', '6'], .op .fletcher16)]

/-- The names of the pseudo-instructions (R107). -/
def asmPseudoNames : List (List Char × AsmName) :=
  [(['C', 'R', 'C', 'B', 'I', 'T'], .crcbit),
    (['B', 'U', 'I', 'L', 'D', '_', 'T', 'A', 'B', 'L', 'E'], .buildTable), (['C', 'C', 'I', 'T', 'T'], .ccitt),
    (['C', 'H', 'E', 'C', 'K', 'S', 'U', 'M', '_', 'I', 'N', 'T', 'E', 'R', 'N', 'E', 'T'], .checksumInternet),
    (['U', 'D', 'P'], .udp), (['T', 'C', 'P'], .tcp),
    (['C', 'H', 'E', 'C', 'K', 'S', 'U', 'M', '_', 'F', 'L', 'E', 'T', 'C', 'H', 'E', 'R', '1', '6'], .checksumFletcher16)]

/-- The entry of a list of names. -/
def asmLookup {α : Type} (names : List (List Char × α)) (t : List Char) : Option α :=
  (names.find? (fun p => decide (p.1 = t))).map Prod.snd

/-- One `name=value`. -/
def asmOperand (t : List Char) : Option (AsmOperand × Nat) :=
  match cutAt '=' t with
  | (_, none) => none
  | (n, some v) =>
    match asmLookup asmOperandNames (trimText n) with
    | none => none
    | some o => (asmValue o (trimText v)).map (fun k => (o, k))

/-- The operands of a line: nothing, or `name=value` pieces between commas. -/
def asmOperandList (t : List Char) : Option AsmOperands :=
  if trimText t = [] then some [] else (cutAll ',' t).mapM asmOperand

/-- One two-digit hexadecimal byte. -/
def asmHexByte : List Char → Option Byte
  | [a, b] =>
    match hexDigit a, hexDigit b with
    | some h, some l => some (BitVec.ofNat 8 (h * 16 + l))
    | _, _ => none
  | _ => none

/-- One character of a quoted string, which is one byte (ASCII). -/
def asmAscii (c : Char) : Option Byte := if c.toNat < 128 then some (BitVec.ofNat 8 c.toNat) else none

/-- The data of a line (R105): nothing, a double-quoted ASCII string, or two-digit hexadecimal bytes separated by spaces. -/
def asmData (t : List Char) : Option (List Byte) :=
  match trimText t with
  | [] => some []
  | c :: cs =>
    if c.toNat = 34 then
      match cutAt (Char.ofNat 34) cs with
      | (inside, some []) => inside.mapM asmAscii
      | _ => none
    else ((cutAll ' ' (c :: cs)).filter (fun p => !p.isEmpty)).mapM asmHexByte

/-- A line of assembler text: its command word and its data, which the host hands over with `H-ISSUE`. -/
def assemble (line : List Char) : Option (CmdWord × List Byte) :=
  let parts := cutAt ';' line
  let head := cutAt ' ' (trimText parts.1)
  match asmLookup (asmOpNames ++ asmPseudoNames) head.1, asmOperandList (head.2.getD []), asmData (parts.2.getD []) with
  | some name, some ops, some data => (asmWord name ops).map (fun w => (w, data))
  | _, _, _ => none

end Sys2Proof.Machine
end

