-- ==== Sys2Proof/Safety.lean ====
section
/-! DEFINITION. The terms in which claims speak of a state: the legal forms of `STATUS` and `TBL`, which every run keeps, and a
run in which no unwritten entry was read. -/

namespace Sys2Proof.Machine

/-- The legal contents of `STATUS` (spec/10_state.md R33, R34; U7): bits 15:5 zero, a code of at most 3, and no code beside
`DONE`. -/
def Status.legal (st : U16) : Bool :=
  Status.upper st == 0#11 && decide ((Status.err st).toNat ≤ 3) && (!Status.done st || Status.err st == 0#3)

/-- After reset and before the first command (spec/70_reset_and_hazards.md R281): `DONE = 0` and `ERR = 0`. -/
def State.fresh (s : State) : Bool := !Status.done s.status && Status.err s.status == 0#3

/-- The invariant of every run: `TBL` in its canonical form, `STATUS` legal, and a unit that no command has reached since reset
holds zero in `RESULT` and `HIGH` in `TORIENT` (R281). -/
def State.Inv (s : State) : Prop :=
  Memory.wf s.tbl = true ∧ Status.legal s.status = true ∧
    (s.fresh = true → s.result = 0x0000#16 ∧ Status.torient s.status = false)

/-- Every entry of `TBL` is written (R284: the only safe course before `CRCTBL`). -/
def State.tblWritten (s : State) : Prop := ∀ i : Byte, (Memory.read? s.tbl i.toNat).isSome = true

/-- The entry `i` of `TBL` where it is written; the statements that use it say that it is. -/
def State.tblEntry (s : State) (i : Byte) : U16 := (Memory.read? s.tbl i.toNat).getD 0x0000#16

/-- A run that is not marked as faulted (R256 (a)): no unwritten entry has been read. -/
def State.safeRun (s : State) : Prop := s.runMark = none

end Sys2Proof.Machine
end

