-- ==== Sys2Proof/Certificates/Slice0/Obligations.lean ====
section
/-! DEFINITION. The statements for the provers. Each says which rule of spec/ it rests on. A few terms of the statements stand
first, written from the spec's own tables and not from the model's functions. -/

namespace Sys2Proof.Spec

open Sys2Proof Sys2Proof.Machine

/-- `STATUS` after a successful command that leaves `TORIENT` alone (R33, R34): `DONE` one, `ERR` zero, bits 15:4 kept. -/
def done (st : U16) : U16 := (st &&& 0xFFF0#16) ||| 0x0001#16

/-- `STATUS` after a rejection with a code (R252): `DONE` zero, `ERR` the code, bits 15:4 kept. -/
def rejected (st code : U16) : U16 := (st &&& 0xFFF0#16) ||| (code <<< 1)

/-- The code of an error (R251). -/
def code : CmdError → U16
  | .opcode => 1#16
  | .field => 2#16
  | .len => 3#16

/-- A row of the opcode map (R100) with the operands its format names (R94 to R98). -/
structure Row where
  op : BitVec 8
  matchWord : CmdWord
  mask : CmdWord
  noData : Bool
  build : CmdWord → List Byte → Instr

/-- The operand of a preset (R97). -/
def override (cw : CmdWord) : Option U16 := if cw.getLsbD 10 then some (cw.extractLsb' 32 16) else none

/-- A row of format P. -/
def presetRow (op : BitVec 8) (cmd : Option U16 → List Byte → Instr) : Row :=
  ⟨op, op.setWidth 64, 0xFFFF0000FFFFFBFF#64, false, fun cw data => cmd (override cw) data⟩

/-- The opcode map, row by row (R100). -/
def rows : List Row :=
  [⟨0x01#8, 0x0000000000000001#64, 0xFFFFFFFF0000FFFF#64, true, fun cw _ => .reflect16 (cw.extractLsb' 16 16)⟩,
   ⟨0x02#8, 0x0000000000000002#64, 0xFFFFFFFF0000FFFF#64, true, fun cw _ => .table16 (cw.extractLsb' 16 16)⟩,
   ⟨0x03#8, 0x0000000000000003#64, 0xFFFF0000FFFFFDFF#64, false,
    fun cw data => .crctbl (if cw.getLsbD 9 then .low else .high) (cw.extractLsb' 32 16) data⟩,
   ⟨0x04#8, 0x0000000000000004#64, 0x000000000000FEFF#64, false,
    fun cw data => .hacker16 (cw.extractLsb' 16 16) (cw.extractLsb' 32 16) (cw.extractLsb' 48 16) (cw.getLsbD 8) data⟩,
   presetRow 0x10#8 .modbus, presetRow 0x11#8 .usb16,
   ⟨0x12#8, 0x0000000000000012#64, 0xFFFF0000FFFFF3FF#64, false,
    fun cw data => .ibm (override cw) (cw.getLsbD 11) data⟩,
   presetRow 0x13#8 .xmodem, presetRow 0x14#8 .ccittFalse, presetRow 0x15#8 .kermit, presetRow 0x16#8 .mcrf4xx,
   presetRow 0x17#8 .x25, presetRow 0x18#8 .sick, presetRow 0x19#8 .dnp, presetRow 0x1A#8 .maxim16,
   presetRow 0x1B#8 .dect,
   ⟨0x20#8, 0x0000000000000020#64, 0xFFFFFFFFFFFFFFFF#64, false, fun _ data => .inet data⟩,
   ⟨0x21#8, 0x0000000000000021#64, 0xFFFFFFFFFFFFFFFF#64, false, fun _ data => .fletcher16 data⟩]

/-- A catalog row that names a table (R186). -/
structure Preset where
  cmd : Option U16 → List Byte → Instr
  normal : U16
  poly : U16
  orient : Orientation
  init : U16
  xorout : U16

/-- The eleven catalog rows that name a table (R186), `IBM` with `PS = 0`. -/
def presets : List Preset :=
  [⟨.modbus, 0x8005#16, 0xA001#16, .low, 0xFFFF#16, 0x0000#16⟩,
   ⟨.usb16, 0x8005#16, 0xA001#16, .low, 0xFFFF#16, 0xFFFF#16⟩,
   ⟨fun init data => .ibm init false data, 0x8005#16, 0xA001#16, .low, 0x0000#16, 0x0000#16⟩,
   ⟨.xmodem, 0x1021#16, 0x1021#16, .high, 0x0000#16, 0x0000#16⟩,
   ⟨.ccittFalse, 0x1021#16, 0x1021#16, .high, 0xFFFF#16, 0x0000#16⟩,
   ⟨.kermit, 0x1021#16, 0x8408#16, .low, 0x0000#16, 0x0000#16⟩,
   ⟨.mcrf4xx, 0x1021#16, 0x8408#16, .low, 0xFFFF#16, 0x0000#16⟩,
   ⟨.x25, 0x1021#16, 0x8408#16, .low, 0xFFFF#16, 0xFFFF#16⟩,
   ⟨.dnp, 0x3D65#16, 0xA6BC#16, .low, 0x0000#16, 0xFFFF#16⟩,
   ⟨.maxim16, 0x8005#16, 0xA001#16, .low, 0x0000#16, 0xFFFF#16⟩,
   ⟨.dect, 0x0589#16, 0x91A0#16, .low, 0x0000#16, 0x0000#16⟩]

/-- The entries of a preset table (R148). -/
def entry (o : Orientation) (p : U16) (b : Byte) : U16 :=
  match o with
  | .high => highEntry p b
  | .low => lowEntry p b

/-- `w 0` to `w 8` are the values of a working register in eight steps most significant bit first against `p` (R142, R170): the
bit tested is bit 15 before the shift. -/
def EightHigh (p : U16) (w : Nat → U16) : Prop :=
  ∀ k, k < 8 → w (k + 1) = if (w k).getLsbD 15 = true then (w k <<< 1) ^^^ p else w k <<< 1

/-- The same least significant bit first (R143): the bit tested is bit 0 before the shift. -/
def EightLow (p : U16) (w : Nat → U16) : Prop :=
  ∀ k, k < 8 → w (k + 1) = if (w k).getLsbD 0 = true then (w k >>> 1) ^^^ p else w k >>> 1

/-- The bit-serial loop of R161 (b). -/
def lowLoop (p : U16) (data : List Byte) (init : U16) : U16 :=
  data.foldl (fun reg b => Nat.iterate (fun r => if r.getLsbD 0 = true then (r >>> 1) ^^^ p else r >>> 1) 8
    (reg ^^^ b.setWidth 16)) init

/-- The entries of `TBL` that a `CRCTBL` indexes, in order (R284): one a byte, `TBL[(REG xor b) and 0xFF]` in `LOW` and
`TBL[(shr16(REG, 8) xor b) and 0xFF]` in `HIGH`, `REG` going on as R157 and R158 say. The list ends with the first entry that is
unwritten, since the register after it is unspecified. -/
def indexes (tbl : Memory) : Orientation → List Byte → U16 → List Byte
  | _, [], _ => []
  | .low, b :: rest, reg =>
    let i : Byte := ((reg ^^^ b.setWidth 16) &&& 0x00FF#16).setWidth 8
    i :: match Memory.read? tbl i.toNat with
      | none => []
      | some v => indexes tbl .low rest (v ^^^ (reg >>> 8))
  | .high, b :: rest, reg =>
    let i : Byte := (((reg >>> 8) ^^^ b.setWidth 16) &&& 0x00FF#16).setWidth 8
    i :: match Memory.read? tbl i.toNat with
      | none => []
      | some v => indexes tbl .high rest ((reg <<< 8) ^^^ v)

/-- Every entry that a `CRCTBL` indexes is written (R71, R284). -/
def IndexedWritten (tbl : Memory) (o : Orientation) (data : List Byte) (init : U16) : Prop :=
  ∀ i ∈ indexes tbl o data init, (Memory.read? tbl i.toNat).isSome = true

/-- The 16-bit words `INET` adds (R220): word `j` is `DATA[2j] * 256 + DATA[2j + 1]`, and an odd last byte is a high byte. -/
def words : List Byte → List Nat
  | [] => []
  | [b] => [b.toNat * 256]
  | hi :: lo :: rest => (hi.toNat * 256 + lo.toNat) :: words rest

/-- `STATUS` after `TABLE16` (R141): `DONE` one, `ERR` zero, `TORIENT` bit 15 of the polynomial, bits 15:5 kept. -/
def doneTable (st p : U16) : U16 :=
  (st &&& 0xFFE0#16) ||| (if p.getLsbD 15 = true then 0x0011#16 else 0x0001#16)

end Sys2Proof.Spec

open Sys2Proof Sys2Proof.Machine

/-! ## Reset, the step and the host interface -/

/-- The state after reset holds the reset values of R40: `RESULT` and every field of `STATUS` zero, every entry of `TBL`
unwritten. -/
def Obligations.ResetStateHoldsTheSpecValues : Prop :=
  State.reset.result = 0x0000#16 ∧ Status.done State.reset.status = false ∧ Status.err State.reset.status = 0#3 ∧
    Status.torient State.reset.status = false ∧ Status.upper State.reset.status = 0#11 ∧
    State.reset.status = 0x0000#16 ∧ ∀ i : Byte, Memory.read? State.reset.tbl i.toNat = none

/-- `H-RESET` (R280): whatever the unit's state, `RESULT` and `STATUS` become zero and every entry unwritten. That the host's
list, the count of free values and the mark stay is the model's choice (log 1, 4, 16). -/
def Obligations.HostResetClearsTheUnit : Prop :=
  ∀ (s : State) (rest : List HostAction), s.pending = .reset :: rest →
    step s = .next { s with result := 0x0000#16, status := 0x0000#16, tbl := [], pending := rest, returned := none }

/-- The six host actions of R70, one clause each. `H-RDTBL` of an unwritten entry returns some value and leaves `RESULT`,
`STATUS` and `TBL` as they were. -/
def Obligations.HostActionsDoWhatTheirTableSays : Prop :=
  ∀ (s : State) (rest : List HostAction),
    (s.pending = .reset :: rest → ∃ t, step s = .next t ∧ t.result = State.reset.result ∧
      t.status = State.reset.status ∧ t.tbl = State.reset.tbl ∧ t.returned = none ∧ t.pending = rest) ∧
    (∀ cw data, s.pending = .issue cw data :: rest →
      ∃ t, step s = .next t ∧ t.returned = none ∧ t.pending = rest ∧
        (∀ i, decode cw data = .ok i → exec i { s with pending := rest, returned := none } = .next t) ∧
        (∀ e, decode cw data = .error e →
          t = { s with status := Spec.rejected s.status (Spec.code e), pending := rest, returned := none })) ∧
    (s.pending = .rdRes :: rest → step s = .next { s with pending := rest, returned := some s.result }) ∧
    (s.pending = .rdStat :: rest → step s = .next { s with pending := rest, returned := some s.status }) ∧
    (∀ i v, s.pending = .rdTbl i :: rest → Memory.read? s.tbl i.toNat = some v →
      step s = .next { s with pending := rest, returned := some v }) ∧
    (∀ i, s.pending = .rdTbl i :: rest → Memory.read? s.tbl i.toNat = none →
      ∃ t v, step s = .next t ∧ t.returned = some v ∧ t.pending = rest ∧ t.result = s.result ∧ t.status = s.status ∧
        t.tbl = s.tbl) ∧
    (∀ i v, s.pending = .wrTbl i v :: rest → ∃ t, step s = .next t ∧ t.result = s.result ∧ t.status = s.status ∧
      t.returned = none ∧ t.pending = rest ∧ Memory.read? t.tbl i.toNat = some v ∧
      ∀ j : Nat, j ≠ i.toNat → Memory.read? t.tbl j = Memory.read? s.tbl j)

/-- The register space of R42. That a bare 16-bit write of the command port is refused is the model's choice (log 11). -/
def Obligations.RegisterNumbersNameTheirRegisters : Prop :=
  ∀ (s : State) (rest : List HostAction) (n : Nat),
    (s.pending = .rdReg n :: rest →
      (n = 0 → step s = .next { s with pending := rest, returned := some s.result }) ∧
      (n = 1 → step s = .next { s with pending := rest, returned := some s.status }) ∧
      (∀ i : Byte, n = 0x100 + i.toNat → step s = step { s with pending := .rdTbl i :: rest }) ∧
      (n ≠ 0 → n ≠ 1 → (n < 0x100 ∨ 0x1FF < n) →
        step s = .next { s with pending := rest, returned := some 0x0000#16 })) ∧
    (∀ v, s.pending = .wrReg n v :: rest →
      (∀ i : Byte, n = 0x100 + i.toNat → step s = step { s with pending := .wrTbl i v :: rest }) ∧
      (n ≠ 2 → (n < 0x100 ∨ 0x1FF < n) → step s = .next { s with pending := rest, returned := none }) ∧
      (n = 2 → step s = .refused .partialCommandWrite))

/-- A step runs the decoded command: when the host's next action hands over a word and data that decode to a command, the step
is that command's `exec`, on the state with the action taken off the list and nothing returned yet. -/
def Obligations.StepRunsTheDecodedCommand : Prop :=
  ∀ (s : State) (cw : CmdWord) (data : List Byte) (rest : List HostAction) (i : Instr),
    s.pending = .issue cw data :: rest → decode cw data = .ok i →
      step s = exec i { s with pending := rest, returned := none }

/-- With no host action to come the unit is idle (the model's choice for what a step is then, log 1). -/
def Obligations.IdleUnitStaysAsItIs : Prop := ∀ s : State, s.pending = [] → step s = .next s

/-- No step stops, but for the one host action the model refuses by name, a bare 16-bit write of the command port (log 11). -/
def Obligations.EveryStepGoesOn : Prop :=
  ∀ s : State, (∃ t, step s = .next t) ∨
    (step s = .refused .partialCommandWrite ∧ ∃ v rest, s.pending = .wrReg 2 v :: rest)

/-! ## Decoding -/

/-- R92 and R253 over the opcode map of R100: the four outcomes, in their order. -/
def Obligations.DecoderFollowsTheOpcodeMap : Prop :=
  ∀ (cw : CmdWord) (data : List Byte),
    ((∀ r ∈ Spec.rows, cw.extractLsb' 0 8 ≠ r.op) → decode cw data = .error .opcode) ∧
    ∀ r ∈ Spec.rows, cw.extractLsb' 0 8 = r.op →
      (cw &&& r.mask ≠ r.matchWord → decode cw data = .error .field) ∧
      (cw &&& r.mask = r.matchWord → r.noData = true → data ≠ [] → decode cw data = .error .len) ∧
      (cw &&& r.mask = r.matchWord → (r.noData = true → data = []) → decode cw data = .ok (r.build cw data))

/-- R102: the 238 reserved opcodes, and only they, are rejected with `ERR_OPCODE`, whatever the other bits and the data. -/
def Obligations.ReservedOpcodesAreRejected : Prop :=
  ∀ (cw : CmdWord) (data : List Byte),
    decode cw data = .error .opcode ↔
      ((cw.extractLsb' 0 8).toNat = 0 ∨ (5 ≤ (cw.extractLsb' 0 8).toNat ∧ (cw.extractLsb' 0 8).toNat ≤ 0x0F) ∨
        (0x1C ≤ (cw.extractLsb' 0 8).toNat ∧ (cw.extractLsb' 0 8).toNat ≤ 0x1F) ∨ 0x22 ≤ (cw.extractLsb' 0 8).toNat)

/-- R252: a rejection writes `DONE <- 0` and `ERR <- code` and nothing else of the unit. -/
def Obligations.RejectionWritesOnlyDoneAndErr : Prop :=
  ∀ (s : State) (cw : CmdWord) (data : List Byte) (rest : List HostAction) (e : CmdError),
    s.pending = .issue cw data :: rest → decode cw data = .error e →
      step s = .next { s with status := Spec.rejected s.status (Spec.code e), pending := rest, returned := none }

/-- R34, R255: after any `H-ISSUE`, `DONE` and `ERR` tell its outcome and nothing of an earlier one. -/
def Obligations.IssueReportsItsOwnOutcome : Prop :=
  ∀ (s : State) (cw : CmdWord) (data : List Byte) (rest : List HostAction), s.pending = .issue cw data :: rest →
    (∃ t, step s = .next t ∧
      (Status.done t.status = true ↔ Status.err t.status = 0#3) ∧
      ((∃ i, decode cw data = .ok i) → Status.done t.status = true ∧ Status.err t.status = 0#3) ∧
      (∀ e, decode cw data = .error e → Status.done t.status = false ∧
        (Status.err t.status).setWidth 16 = Spec.code e) ∧
      Status.upper t.status = Status.upper s.status ∧
      ((∀ p, decode cw data ≠ .ok (.table16 p)) → Status.torient t.status = Status.torient s.status)) ∧
    ∀ st : U16, st &&& 0xFFF0#16 = s.status &&& 0xFFF0#16 → step { s with status := st } = step s

/-- Encoding loses nothing: the decoder reads every command back from its own word, every operand at every value. -/
def Obligations.DecodeOfEncodeIsTheCommand : Prop := ∀ i : Instr, decode (encode i) i.data = .ok i

/-- R104: an accepted word is the encoding of its command, but for the `INIT` bits of a preset with `IO = 0`, which are the only
don't-care bits. -/
def Obligations.AcceptedWordIsItsEncodingButForIgnoredInit : Prop :=
  ∀ (cw : CmdWord) (data : List Byte) (i : Instr), decode cw data = .ok i →
    i.data = data ∧
      encode i =
        if 0x10 ≤ (cw.extractLsb' 0 8).toNat ∧ (cw.extractLsb' 0 8).toNat ≤ 0x1B ∧ cw.getLsbD 10 = false then
          cw &&& 0xFFFF0000FFFFFFFF#64
        else cw

/-- The ten words of R108, written out there bit by bit. -/
def Obligations.EncodingExamplesDecodeAsTheSpecSays : Prop :=
  let cs : List Byte := [0x31, 0x32, 0x33, 0x34, 0x35, 0x36, 0x37, 0x38, 0x39]
  decode 0x0000000080050001#64 [] = .ok (.reflect16 0x8005#16) ∧
  decode 0x00000000A0010002#64 [] = .ok (.table16 0xA001#16) ∧
  decode 0x0000FFFF00000203#64 cs = .ok (.crctbl .low 0xFFFF#16 cs) ∧
  decode 0x0000FFFF10210004#64 cs = .ok (.hacker16 0x1021#16 0xFFFF#16 0x0000#16 false cs) ∧
  decode 0xFFFF000080050104#64 [] = .ok (.hacker16 0x8005#16 0x0000#16 0xFFFF#16 true []) ∧
  decode 0x0000000000000010#64 cs = .ok (.modbus none cs) ∧
  decode 0x0000123400000410#64 [] = .ok (.modbus (some 0x1234#16) []) ∧
  decode 0x0000000000000812#64 [] = .ok (.ibm none true []) ∧
  decode 0x0000000000000020#64 [] = .ok (.inet []) ∧
  decode 0x0000000000000021#64 [] = .ok (.fletcher16 [])

/-- R106: the operands of each command and their defaults in the assembler. An operand that is left out stands as `none`. -/
def Obligations.AssemblerFillsInTheDefaults : Prop :=
  let given (n : AsmOperand) (v : Option Nat) : AsmOperands := (v.map (fun k => (n, k))).toList
  let val (v : Option Nat) (d : U16) : U16 := v.elim d (BitVec.ofNat 16)
  (∀ v, asmWord (.op .reflect16) (given .x v) = v.map (fun k => encode (.reflect16 (BitVec.ofNat 16 k)))) ∧
  (∀ v, asmWord (.op .table16) (given .poly v) = v.map (fun k => encode (.table16 (BitVec.ofNat 16 k)))) ∧
  (∀ i r, asmWord (.op .crctbl) (given .or none ++ given .init i) = none ∧
    asmWord (.op .crctbl) (given .or r ++ given .init none) = none ∧
    ∀ k, asmWord (.op .crctbl) (given .or (some 0) ++ given .init (some k)) =
        some (encode (.crctbl .high (BitVec.ofNat 16 k) [])) ∧
      asmWord (.op .crctbl) (given .or (some 1) ++ given .init (some k)) =
        some (encode (.crctbl .low (BitVec.ofNat 16 k) []))) ∧
  (∀ p i x, ∀ r ∈ [(none, false), (some 0, false), (some 1, true)],
    asmWord (.op .hacker16) (given .poly p ++ given .init i ++ given .xorout x ++ given .reflect r.1) =
      some (encode (.hacker16 (val p 0x1021#16) (val i 0xFFFF#16) (val x 0x0000#16) r.2 []))) ∧
  (∀ pr ∈ [(Op.modbus, Instr.modbus), (.usb16, .usb16), (.xmodem, .xmodem), (.ccittFalse, .ccittFalse),
      (.kermit, .kermit), (.mcrf4xx, .mcrf4xx), (.x25, .x25), (.sick, .sick), (.dnp, .dnp), (.maxim16, .maxim16),
      (.dect, .dect)],
    asmWord (.op pr.1) [] = some (pr.1.code.setWidth 64) ∧
    ∀ i, asmWord (.op pr.1) (given .init i) = some (encode (pr.2 (i.map (BitVec.ofNat 16)) []))) ∧
  (∀ i, ∀ r ∈ [(none, false), (some 0, false), (some 1, true)],
    asmWord (.op .ibm) (given .init i ++ given .alt r.1) = some (encode (.ibm (i.map (BitVec.ofNat 16)) r.2 []))) ∧
  asmWord (.op .inet) [] = some (encode (.inet [])) ∧ asmWord (.op .fletcher16) [] = some (encode (.fletcher16 []))

/-- R105: the operands of a line may come in any order. -/
def Obligations.AssemblerOperandsComeInAnyOrder : Prop :=
  ∀ (name : AsmName) (ops ops' : AsmOperands), ops.Perm ops' → asmWord name ops = asmWord name ops'

/-- R107: each pseudo-instruction is one command. -/
def Obligations.PseudoInstructionsExpandToOneCommand : Prop :=
  (∀ p i r, asmWord .crcbit [(.poly, p), (.init, i), (.reflect, r)] =
    asmWord (.op .hacker16) [(.poly, p), (.init, i), (.xorout, 0), (.reflect, r)]) ∧
  (∀ p, asmWord .buildTable [(.poly, p)] = asmWord (.op .table16) [(.poly, p)]) ∧
  (asmWord .ccitt [] = asmWord (.op .kermit) []) ∧
  (∀ i, asmWord .ccitt [(.init, i)] = asmWord (.op .kermit) [(.init, i)]) ∧
  (asmWord .checksumInternet [] = asmWord (.op .inet) [] ∧ asmWord .udp [] = asmWord (.op .inet) [] ∧
    asmWord .tcp [] = asmWord (.op .inet) []) ∧
  asmWord .checksumFletcher16 [] = asmWord (.op .fletcher16) []

/-! ## REFLECT16 -/

/-- `REFLECT16` completes with the bit reversal in `RESULT` and changes only `RESULT`, `DONE` and `ERR` (R131, in the words
of its pseudocode). -/
def Obligations.Reflect16WritesTheBitReversal : Prop :=
  ∀ (x : U16) (s : State), ∃ r : U16,
    exec (.reflect16 x) s = .next { s with result := r, status := Spec.done s.status } ∧
      ∀ i, i < 16 → r.getLsbD (15 - i) = x.getLsbD i

/-- R130: bit by bit, as an involution, and in the numeric form. -/
def Obligations.Reflect16ReversesBits : Prop :=
  ∀ x : U16, (∀ i, i < 16 → (reflect16 x).getLsbD (15 - i) = x.getLsbD i) ∧ reflect16 (reflect16 x) = x ∧
    (reflect16 x).toNat = ((List.range 16).map (fun i => (x.getLsbD i).toNat * 2 ^ (15 - i))).sum

/-- R132: involution, bijection, xor, the byte form, and a second `REFLECT16` on the `RESULT` of a first. -/
def Obligations.Reflect16Laws : Prop :=
  (∀ x : U16, reflect16 (reflect16 x) = x) ∧ Function.Bijective reflect16 ∧
  (∀ a b : U16, reflect16 (a ^^^ b) = reflect16 a ^^^ reflect16 b) ∧
  (∀ x : U16, (reflect16 x).extractLsb' 8 8 = (x.extractLsb' 0 8).reverse ∧
    (reflect16 x).extractLsb' 0 8 = (x.extractLsb' 8 8).reverse) ∧
  ∀ (x : U16) (s t : State), exec (.reflect16 x) s = .next t →
    ∃ u, exec (.reflect16 t.result) t = .next u ∧ u.result = x

/-! ## TABLE16 -/

/-- `TABLE16` completes (R140, R141): every entry of `TBL` is the entry of the orientation bit 15 of the polynomial chooses,
`TORIENT` is that bit, `DONE` and `ERR` are 1 and 0, and `RESULT` and everything else is unchanged. -/
def Obligations.Table16BuildsTheTable : Prop :=
  ∀ (p : U16) (s : State), ∃ m : Memory,
    exec (.table16 p) s = .next { s with tbl := m, status := Spec.doneTable s.status p } ∧ Memory.wf m = true ∧
      ∀ b : Byte, Memory.read? m b.toNat = some (if p.getLsbD 15 = true then lowEntry p b else highEntry p b)

/-- The entry functions of R142 and R143 as their eight steps. -/
def Obligations.TableEntriesAreEightSteps : Prop :=
  ∀ (p : U16) (b : Byte) (w : Nat → U16),
    (w 0 = b.setWidth 16 <<< 8 → Spec.EightHigh p w → highEntry p b = w 8) ∧
    (w 0 = b.setWidth 16 → Spec.EightLow p w → lowEntry p b = w 8)

/-- R145 (a) to (f). -/
def Obligations.TableEntryLaws : Prop :=
  (∀ p, highEntry p 0#8 = 0#16 ∧ lowEntry p 0#8 = 0#16) ∧
  (∀ p, highEntry p 0x01#8 = p ∧ lowEntry p 0x80#8 = p) ∧
  (∀ p a b, highEntry p (a ^^^ b) = highEntry p a ^^^ highEntry p b ∧
    lowEntry p (a ^^^ b) = lowEntry p a ^^^ lowEntry p b) ∧
  (∀ b, highEntry 0#16 b = 0#16 ∧ lowEntry 0#16 b = 0#16) ∧
  (∀ p b, highEntry p b = crcBitwise [b] p 0#16 false) ∧
  ∀ q b, lowEntry (reflect16 q) b = reflect16 (highEntry q b.reverse)

/-- R144: what `TABLE16` leaves is a function of the polynomial, whatever the state. -/
def Obligations.Table16IsAFunctionOfThePolynomial : Prop :=
  ∀ (p : U16) (s₁ s₂ : State), ∃ t₁ t₂, exec (.table16 p) s₁ = .next t₁ ∧ exec (.table16 p) s₂ = .next t₂ ∧
    t₁.tbl = t₂.tbl ∧ Status.torient t₁.status = Status.torient t₂.status

/-- R147: a `CRCTBL` of one byte from zero, in the orientation `TABLE16` reported, gives the entry of that byte. -/
def Obligations.OneByteCrcReadsTheTableEntry : Prop :=
  ∀ (p : U16) (b : Byte) (s t : State), exec (.table16 p) s = .next t →
    ∃ u, exec (.crctbl (Orientation.ofBit (Status.torient t.status)) 0x0000#16 [b]) t = .next u ∧
      Memory.read? t.tbl b.toNat = some u.result

/-- The loop of R141's pseudocode, `TBL[b] <- W` for `b` in 0 to 255, leaves the table `TABLE16` leaves, whatever stood in `TBL`
before. -/
def Obligations.Table16EqualsItsSingleWrites : Prop :=
  ∀ (p : U16) (s t : State), Memory.wf s.tbl = true → exec (.table16 p) s = .next t →
    ((List.range 256).foldl
      (fun u k => writeTbl (BitVec.ofNat 8 k) (Spec.entry (orientOf p) p (BitVec.ofNat 8 k)) u) s).tbl = t.tbl

/-! ## CRCTBL -/

/-- `crc_table` and its two steps (R155, R157, R158). -/
def Obligations.CrcTableStepsByOrientation : Prop :=
  ∀ (t : Byte → U16) (init : U16) (b : Byte) (rest : List Byte),
    let lo := t (((init ^^^ b.setWidth 16) &&& 0x00FF#16).setWidth 8)
    let hi := t ((((init >>> 8) ^^^ b.setWidth 16) &&& 0x00FF#16).setWidth 8)
    crcTable t .low init [] = init ∧ crcTable t .high init [] = init ∧
    crcTable t .low init (b :: rest) = crcTable t .low (lo ^^^ (init >>> 8)) rest ∧
    crcTable t .high init (b :: rest) = crcTable t .high ((init <<< 8) ^^^ hi) rest ∧
    (crcTable t .low init [b]).extractLsb' 8 8 = lo.extractLsb' 8 8

/-- `CRCTBL` completes with the engine's value over `TBL` when every entry it INDEXES is written, whatever the others are (R71, R156,
R284), and changes only `RESULT`, `DONE` and `ERR`: it leaves no mark. A buffer all of whose entries are written is one such. -/
def Obligations.CrctblRunsTheEngineOverTbl : Prop :=
  (∀ (o : Orientation) (init : U16) (data : List Byte) (s : State), Spec.IndexedWritten s.tbl o data init →
    exec (.crctbl o init data) s =
      .next { s with result := crcTable s.tblEntry o init data, status := Spec.done s.status }) ∧
  ∀ (o : Orientation) (init : U16) (data : List Byte) (s : State), s.tblWritten → Spec.IndexedWritten s.tbl o data init

/-- `CRCTBL` completes on every state, whatever is written (R256 (a), R284: the unit completes with `DONE = 1`, `ERR = NONE` and
an unspecified `RESULT`): `TBL` and every register but `RESULT`, `DONE` and `ERR` is unchanged. Empty data gives `init` and reads
no entry (R156). A run that has not been marked has read written entries only, and then `RESULT` is the engine's value. The
count and the mark are the model's own (log 3, 4). -/
def Obligations.CrctblCompletesOnAnyTable : Prop :=
  ∀ (o : Orientation) (init : U16) (data : List Byte) (s : State), ∃ (r : U16) (c : Nat) (k : Option Fault),
    exec (.crctbl o init data) s =
      .next { s with result := r, status := Spec.done s.status, freeCount := c, runMark := k } ∧
    (data = [] → r = init ∧ c = s.freeCount ∧ k = s.runMark) ∧
    (k = none → s.runMark = none ∧ c = s.freeCount ∧ r = crcTable s.tblEntry o init data)

/-- A `CRCTBL` that indexes an unwritten entry, at any byte of its data, marks the run with that entry (R36, R256 (a), U1; log 4):
when the `CRCTBL` over the bytes before leaves no mark and its register gives the byte an unwritten index. -/
def Obligations.UnwrittenEntryMarksTheRun : Prop :=
  ∀ (init : U16) (pre : List Byte) (b : Byte) (rest : List Byte) (s u : State),
    (exec (.crctbl .low init pre) s = .next u → u.runMark = none →
      Memory.read? s.tbl (((u.result ^^^ b.setWidth 16) &&& 0x00FF#16).toNat) = none →
      ∃ t, exec (.crctbl .low init (pre ++ b :: rest)) s = .next t ∧
        t.runMark = some (.unwrittenEntry (((u.result ^^^ b.setWidth 16) &&& 0x00FF#16).setWidth 8))) ∧
    (exec (.crctbl .high init pre) s = .next u → u.runMark = none →
      Memory.read? s.tbl ((((u.result >>> 8) ^^^ b.setWidth 16) &&& 0x00FF#16).toNat) = none →
      ∃ t, exec (.crctbl .high init (pre ++ b :: rest)) s = .next t ∧
        t.runMark = some (.unwrittenEntry ((((u.result >>> 8) ^^^ b.setWidth 16) &&& 0x00FF#16).setWidth 8)))

/-- R160: a buffer in two pieces, the first `RESULT` the second `init`. The commands need the entries they index to be written, and
no others (R284). -/
def Obligations.CrctblChains : Prop :=
  (∀ (t : Byte → U16) (o : Orientation) (init : U16) (a b : List Byte),
    crcTable t o init (a ++ b) = crcTable t o (crcTable t o init a) b) ∧
  ∀ (o : Orientation) (init : U16) (a b : List Byte) (s : State), Spec.IndexedWritten s.tbl o (a ++ b) init →
    ∃ t u v, exec (.crctbl o init a) s = .next t ∧ exec (.crctbl o t.result b) t = .next u ∧
      exec (.crctbl o init (a ++ b)) s = .next v ∧ u.result = v.result

/-- R161: on a `HIGH` table the table-driven engine is the bitwise engine, and on a `LOW` table it is the bit-serial loop
shifting right. -/
def Obligations.TableEngineEqualsBitSerialEngine : Prop :=
  ∀ (p : U16) (t : Byte → U16),
    ((∀ b, t b = highEntry p b) → ∀ (data : List Byte) (init : U16),
      crcTable t .high init data = crcBitwise data p init false) ∧
    ((∀ b, t b = lowEntry p b) → ∀ (data : List Byte) (init : U16),
      crcTable t .low init data = Spec.lowLoop p data init)

/-! ## HACKER16 -/

/-- `HACKER16` completes with the bitwise engine's register xor `xorout` (R171, R173) and changes only `RESULT`, `DONE` and
`ERR`. -/
def Obligations.Hacker16RunsTheBitwiseEngine : Prop :=
  ∀ (p init x : U16) (r : Bool) (data : List Byte) (s : State),
    exec (.hacker16 p init x r data) s =
      .next { s with result := crcBitwise data p init r ^^^ x, status := Spec.done s.status }

/-- R170: the loop of the bitwise engine, with the polynomial reflected when the flag says so. -/
def Obligations.BitwiseEngineIsItsLoop : Prop :=
  ∀ (p init : U16) (r : Bool) (b : Byte) (rest : List Byte) (w : Nat → U16),
    crcBitwise [] p init r = init ∧
    (w 0 = init ^^^ (b.setWidth 16 <<< 8) → Spec.EightHigh (if r = true then reflect16 p else p) w →
      crcBitwise (b :: rest) p init r = crcBitwise rest p (w 8) r)

/-- R172: the flag replaces the polynomial by its reflection and does nothing else. -/
def Obligations.ReflectFlagOnlyReflectsThePolynomial : Prop :=
  ∀ (q init x : U16) (data : List Byte) (s : State),
    exec (.hacker16 q init x true data) s = exec (.hacker16 (reflect16 q) init x false data) s

/-- R174 (a) to (d). -/
def Obligations.BitwiseEngineLaws : Prop :=
  (∀ (p init : U16) (data : List Byte),
    crcBitwise data p init false = crcTable (highEntry p) .high init data) ∧
  (∀ (p init : U16) (r : Bool) (a b : List Byte),
    crcBitwise (a ++ b) p init r = crcBitwise b p (crcBitwise a p init r) r) ∧
  (∀ (p init x : U16) (r : Bool) (a b : List Byte) (s t : State), exec (.hacker16 p init x r a) s = .next t →
    ∃ u v, exec (.hacker16 p (t.result ^^^ x) x r b) t = .next u ∧ exec (.hacker16 p init x r (a ++ b)) s = .next v ∧
      u.result = v.result) ∧
  (∀ (p : U16) (b : Byte), crcBitwise [b] p 0#16 false = highEntry p b) ∧
  ∀ (p i₁ i₂ : U16) (r : Bool) (b₁ b₂ : Byte),
    i₁ ^^^ (b₁.setWidth 16 <<< 8) = i₂ ^^^ (b₂.setWidth 16 <<< 8) → crcBitwise [b₁] p i₁ r = crcBitwise [b₂] p i₂ r

/-! ## The presets -/

/-- R187 over R186, for the eleven rows that name a table: the command completes with `crc_table` over the preset table from the
effective initial value, xor the row's xorout, and changes only `RESULT`, `DONE` and `ERR`. -/
def Obligations.PresetsComputeTheirCatalogRow : Prop :=
  ∀ pr ∈ Spec.presets, ∀ (init : Option U16) (data : List Byte) (s : State),
    exec (pr.cmd init data) s =
      .next { s with result := crcTable (Spec.entry pr.orient pr.poly) pr.orient (init.getD pr.init) data ^^^ pr.xorout,
                     status := Spec.done s.status }

/-- `IBM` with `PS = 1` (R192): there is one polynomial (the open `IBM_ALT`, log 6) whose table, in the orientation bit 15 of it
chooses, the command uses on every input. -/
def Obligations.IbmAltUsesOneOpenPolynomial : Prop :=
  ∃ q : U16, ∀ (init : Option U16) (data : List Byte) (s : State),
    exec (.ibm init true data) s =
      .next { s with result := crcTable (if q.getLsbD 15 = true then lowEntry q else highEntry q)
                                 (if q.getLsbD 15 = true then .low else .high) (init.getD 0x0000#16) data,
                     status := Spec.done s.status }

/-- `SICK` (R8, R198): there is one function (the open `SICK_CORE`, log 5), the identity on the initial value for the empty
buffer, that the command computes on every input. -/
def Obligations.SickComputesOneOpenFunction : Prop :=
  ∃ f : List Byte → U16 → U16, (∀ n, f [] n = n) ∧ ∀ (init : Option U16) (data : List Byte) (s : State),
    exec (.sick init data) s =
      .next { s with result := f data (init.getD 0x0000#16), status := Spec.done s.status }

/-- R202: the empty buffer gives the effective initial value xor the xorout, for all twelve presets. -/
def Obligations.EmptyBufferGivesTheInitialValue : Prop :=
  (∀ pr ∈ Spec.presets, ∀ (init : Option U16) (s : State), ∃ t, exec (pr.cmd init []) s = .next t ∧
    t.result = init.getD pr.init ^^^ pr.xorout) ∧
  (∀ (init : Option U16) (s : State), ∃ t, exec (.ibm init true []) s = .next t ∧ t.result = init.getD 0x0000#16) ∧
  (∀ (init : Option U16) (s : State), ∃ t, exec (.sick init []) s = .next t ∧ t.result = init.getD 0x0000#16) ∧
  (∀ c ∈ [Instr.modbus none [], .ccittFalse none [], .mcrf4xx none [], .dnp none [], .maxim16 none []],
    ∀ s : State, ∃ t, exec c s = .next t ∧ t.result = 0xFFFF#16) ∧
  ∀ c ∈ [Instr.usb16 none [], .ibm none false [], .ibm none true [], .xmodem none [], .kermit none [], .x25 none [],
    .sick none [], .dect none []], ∀ s : State, ∃ t, exec c s = .next t ∧ t.result = 0x0000#16

/-- R203, for the rows that name a table: a buffer in two pieces, with the xorout of the first undone. -/
def Obligations.PresetsChainWhenTheXoroutIsUndone : Prop :=
  ∀ pr ∈ Spec.presets, ∀ (init : Option U16) (a b : List Byte) (s t : State), exec (pr.cmd init a) s = .next t →
    ∃ u v, exec (pr.cmd (some (t.result ^^^ pr.xorout)) b) t = .next u ∧ exec (pr.cmd init (a ++ b)) s = .next v ∧
      u.result = v.result

/-- R204: presets that share a table, given the same override and data, give equal or complementary results. -/
def Obligations.PresetsThatShareATableAgree : Prop :=
  ∀ (v : U16) (data : List Byte) (s : State), ∃ modbus usb16 ibm maxim16 kermit mcrf4xx x25 xmodem ccittFalse : State,
    exec (.modbus (some v) data) s = .next modbus ∧ exec (.usb16 (some v) data) s = .next usb16 ∧
    exec (.ibm (some v) false data) s = .next ibm ∧ exec (.maxim16 (some v) data) s = .next maxim16 ∧
    exec (.kermit (some v) data) s = .next kermit ∧ exec (.mcrf4xx (some v) data) s = .next mcrf4xx ∧
    exec (.x25 (some v) data) s = .next x25 ∧ exec (.xmodem (some v) data) s = .next xmodem ∧
    exec (.ccittFalse (some v) data) s = .next ccittFalse ∧
    ibm.result = modbus.result ∧ usb16.result = ~~~ modbus.result ∧ maxim16.result = ~~~ modbus.result ∧
    mcrf4xx.result = kermit.result ∧ x25.result = ~~~ kermit.result ∧ ccittFalse.result = xmodem.result

/-- The cross-consistency of R193 and R194: two presets are the bitwise engine on every input. -/
def Obligations.XmodemAndCcittFalseAreTheBitwiseEngine : Prop :=
  ∀ (data : List Byte) (s : State),
    exec (.xmodem none data) s = exec (.hacker16 0x1021#16 0x0000#16 0x0000#16 false data) s ∧
    exec (.ccittFalse none data) s = exec (.hacker16 0x1021#16 0xFFFF#16 0x0000#16 false data) s

/-- R189: the catalog agrees with the table generator, and `TABLE16`, then `CRCTBL`, then the xorout reproduces a preset. -/
def Obligations.TableGeneratorReproducesThePresets : Prop :=
  ∀ pr ∈ Spec.presets,
    orientOf pr.poly = pr.orient ∧ (pr.orient = .low → pr.poly = reflect16 pr.normal) ∧
    (pr.orient = .high → pr.poly = pr.normal) ∧
    ∀ (init : U16) (data : List Byte) (s : State), ∃ t u v, exec (.table16 pr.poly) s = .next t ∧
      Orientation.ofBit (Status.torient t.status) = pr.orient ∧
      (∀ b : Byte, Memory.read? t.tbl b.toNat = some (Spec.entry pr.orient pr.poly b)) ∧
      exec (.crctbl pr.orient init data) t = .next u ∧ exec (pr.cmd (some init) data) s = .next v ∧
      v.result = u.result ^^^ pr.xorout

/-! ## INET and FLETCHER16 -/

/-- `INET` completes with the complement of the folded sum (R220, R221) and changes only `RESULT`, `DONE` and `ERR`. -/
def Obligations.InetWritesTheComplementOfTheFoldedSum : Prop :=
  ∀ (data : List Byte) (s : State),
    exec (.inet data) s =
      .next { s with result := ~~~ (fold16 (Spec.words data).sum), status := Spec.done s.status }

/-- R18: `fold16`, by its loop and in its closed form. -/
def Obligations.Fold16IsItsLoopAndItsClosedForm : Prop :=
  ∀ n : Nat, (n < 65536 → (fold16 n).toNat = n) ∧
    (65536 ≤ n → fold16 n = fold16 (n % 65536 + n / 65536) ∧ n % 65536 + n / 65536 < n) ∧
    (fold16 0).toNat = 0 ∧ (0 < n → (fold16 n).toNat = (n - 1) % 65535 + 1 ∧ (fold16 n).toNat % 65535 = n % 65535)

/-- R220: the words by their index in the buffer, big-endian, and an odd last byte as a high byte. -/
def Obligations.InternetSumIsOverBigEndianWords : Prop :=
  ∀ data : List Byte,
    checksumInternet data = ~~~ (fold16
      (((List.range (data.length / 2)).map
          (fun j => (data.getD (2 * j) 0#8).toNat * 256 + (data.getD (2 * j + 1) 0#8).toNat)).sum +
        if data.length % 2 = 1 then (data.getD (data.length - 1) 0#8).toNat * 256 else 0))

/-- R223: a trailing zero byte is neutral, for an odd and for an even buffer, and any number of them; a leading one is not. -/
def Obligations.TrailingZerosAreNeutralForInet : Prop :=
  (∀ (data : List Byte) (n : Nat), checksumInternet (data ++ List.replicate n 0x00#8) = checksumInternet data) ∧
  (∀ (data : List Byte) (s : State), ∃ t u, exec (.inet data) s = .next t ∧ exec (.inet (data ++ [0x00#8])) s = .next u ∧
    t.result = u.result) ∧
  ∃ data : List Byte, checksumInternet (0x00#8 :: data) ≠ checksumInternet data

/-- R224 (a) to (c): the order of whole words does not matter, the complement of the result is the sum modulo 65535, and a buffer
of even length with its own checksum appended checks to zero. -/
def Obligations.InternetChecksumLaws : Prop :=
  (∀ d₁ d₂ : List Byte, (Spec.words d₁).Perm (Spec.words d₂) → checksumInternet d₁ = checksumInternet d₂) ∧
  (∀ d : List Byte, (~~~ checksumInternet d).toNat % 65535 = (Spec.words d).sum % 65535) ∧
  ∀ d : List Byte, d.length % 2 = 0 →
    checksumInternet (d ++ [(checksumInternet d).extractLsb' 8 8, (checksumInternet d).extractLsb' 0 8]) = 0x0000#16

/-- `FLETCHER16` completes with `SUM2` in the high byte and `SUM1` in the low byte (R236, R238 (b)): the sums of R238's closed
form. It changes only `RESULT`, `DONE` and `ERR`. -/
def Obligations.Fletcher16WritesTheTwoSums : Prop :=
  ∀ (data : List Byte) (s : State), ∃ t, exec (.fletcher16 data) s = .next t ∧
    t = { s with result := t.result, status := Spec.done s.status } ∧
    (t.result.extractLsb' 0 8).toNat = (data.map BitVec.toNat).sum % 255 ∧
    (t.result.extractLsb' 8 8).toNat =
      ((List.range data.length).map (fun k => (data.length - k) * (data.getD k 0#8).toNat)).sum % 255

/-- R235: one byte at a time, the new `SUM1` added to `SUM2`. -/
def Obligations.FletcherSumsAreTheirLoop : Prop :=
  fletcherSums [] = (0, 0) ∧
  (∀ (data : List Byte) (b : Byte),
    (fletcherSums (data ++ [b])).1 = ((fletcherSums data).1 + b.toNat) % 255 ∧
    (fletcherSums (data ++ [b])).2 = ((fletcherSums data).2 + (fletcherSums (data ++ [b])).1) % 255) ∧
  ∀ data : List Byte, (fletcher16 data).toNat = (fletcherSums data).2 * 256 + (fletcherSums data).1

/-- R238 (a), (c) and (d): both sums stay in 0 to 254, `SUM1` does not see the order of the bytes, and a byte `0xFF` counts
as `0x00`. -/
def Obligations.FletcherLaws : Prop :=
  (∀ data : List Byte, (fletcherSums data).1 ≤ 254 ∧ (fletcherSums data).2 ≤ 254) ∧
  (∀ d₁ d₂ : List Byte, d₁.Perm d₂ → (fletcherSums d₁).1 = (fletcherSums d₂).1) ∧
  ∀ a b : List Byte, fletcher16 (a ++ 0xFF#8 :: b) = fletcher16 (a ++ 0x00#8 :: b)

/-! ## The whole machine -/

/-- Every command completes on every state, with `DONE = 1` and `ERR = 0` (R4, R34, R250). -/
def Obligations.EveryCommandCompletes : Prop :=
  ∀ (i : Instr) (s : State), ∃ t, exec i s = .next t ∧ Status.done t.status = true ∧ Status.err t.status = 0#3

/-- The frame of every command (R41): what each leaves unchanged. No command but `TABLE16` changes an entry of `TBL` or
`TORIENT`; `TABLE16` does not change `RESULT` and writes every entry; none changes bits 15:5 of `STATUS`, the host's list or what
was returned; and only `CRCTBL` can touch the count and the mark, which are the model's own. -/
def Obligations.CommandsChangeOnlyTheirRow : Prop :=
  ∀ (i : Instr) (s t : State), exec i s = .next t →
    t.pending = s.pending ∧ t.returned = s.returned ∧ Status.upper t.status = Status.upper s.status ∧
    ((∀ p, i ≠ .table16 p) → t.status = Spec.done s.status ∧
      ∀ j, Memory.read? t.tbl j = Memory.read? s.tbl j) ∧
    (∀ p, i = .table16 p → t.result = s.result ∧ t.status = Spec.doneTable s.status p ∧ t.tblWritten) ∧
    ((∀ o init data, i ≠ .crctbl o init data) → t.freeCount = s.freeCount ∧ t.runMark = s.runMark)

/-- R282: every command but a `CRCTBL` with data reads nothing that reset leaves unspecified, so it may be the first one after
reset, with its data's result the same as in any other state. -/
def Obligations.SeventeenCommandsNeedNoTable : Prop :=
  ∀ (i : Instr) (s : State), (∀ o init b rest, i ≠ .crctbl o init (b :: rest)) → ∃ t u,
    exec i State.reset = .next t ∧ exec i s = .next u ∧ t.runMark = none ∧ t.freeCount = State.reset.freeCount ∧
      ((∀ p, i ≠ .table16 p) → t.result = u.result) ∧ (∀ p, i = .table16 p → t.tbl = u.tbl)

/-- R297: what a command computes depends on the command and, for `CRCTBL` alone, on the entries of `TBL` it indexes (written ones),
never on `RESULT`, `STATUS` or anything else of the state before. -/
def Obligations.ResultDependsOnCommandAndTableOnly : Prop :=
  ∀ (i : Instr) (s₁ s₂ : State),
    (∀ o init data, i = .crctbl o init data →
      Spec.IndexedWritten s₁.tbl o data init ∧
        ∀ j ∈ Spec.indexes s₁.tbl o data init, Memory.read? s₂.tbl j.toNat = Memory.read? s₁.tbl j.toNat) →
    ∃ t₁ t₂, exec i s₁ = .next t₁ ∧ exec i s₂ = .next t₂ ∧
      ((∀ p, i ≠ .table16 p) → t₁.result = t₂.result) ∧
      (∀ p, i = .table16 p → t₁.tbl = t₂.tbl ∧ Status.torient t₁.status = Status.torient t₂.status)

/-- Only these events change `RESULT`, `TORIENT` and `TBL` (R32, R35, R36): a reset, a command other than `TABLE16` for `RESULT`, a
`TABLE16` for `TORIENT` and every entry, and a host write for its one entry. -/
def Obligations.OnlyTheseEventsChangeTheUnit : Prop :=
  ∀ (s t : State), step s = .next t →
    (t.result ≠ s.result → s.pending.head? = some .reset ∨
      ∃ cw data i, s.pending.head? = some (.issue cw data) ∧ decode cw data = .ok i ∧ ∀ p, i ≠ .table16 p) ∧
    (Status.torient t.status ≠ Status.torient s.status → s.pending.head? = some .reset ∨
      ∃ cw data p, s.pending.head? = some (.issue cw data) ∧ decode cw data = .ok (.table16 p)) ∧
    ∀ j : Byte, Memory.read? t.tbl j.toNat ≠ Memory.read? s.tbl j.toNat →
      s.pending.head? = some .reset ∨
      (∃ cw data p, s.pending.head? = some (.issue cw data) ∧ decode cw data = .ok (.table16 p)) ∨
      (∃ v, s.pending.head? = some (.wrTbl j v)) ∨ (∃ v, s.pending.head? = some (.wrReg (0x100 + j.toNat) v))

/-- R284: once every entry of `TBL` is written, it stays so until a reset, and no step marks the run or uses a free value. -/
def Obligations.WrittenTableIsSafeUntilReset : Prop :=
  ∀ (s t : State), s.tblWritten → s.pending.head? ≠ some .reset → step s = .next t →
    t.tblWritten ∧ t.runMark = s.runMark ∧ t.freeCount = s.freeCount

/-- The invariant holds after reset. -/
def Obligations.ResetStateIsLegal : Prop := State.reset.Inv

/-- Every step keeps the invariant: `TBL` in its canonical form, `STATUS` with bits 15:5 zero, a code of at most 3 and no code
beside `DONE` (R33, R34, U7), and a unit no command has reached since reset with zero in `RESULT` and `TORIENT` (R281). -/
def Obligations.EveryStepKeepsTheInvariant : Prop := ∀ s t : State, s.Inv → step s = .next t → t.Inv
end

