-- ==== Sys2Proof/Laws/Decode.lean ====
section
/-! SUPPORT. The decoder inverted once, and the fields of a packed word. -/

namespace Sys2Proof

/-- The code of an opcode names it. -/
@[simp] theorem ofCode_code (o : Op) : Op.ofCode o.code = some o := by cases o <;> rfl

/-- A code that names an opcode is its code. -/
theorem ofCode_some {c : BitVec 8} {o : Op} (h : Op.ofCode c = some o) : c = o.code := by
  have := List.find?_some h
  exact (beq_iff_eq.mp this).symm

/-- Everything the decoder accepts (spec/30_encoding.md R92). -/
theorem decode_eq_ok {cw : CmdWord} {data : List Byte} {i : Instr} :
    decode cw data = .ok i ↔ ∃ o : Op, CmdWord.op cw = o.code ∧ cw &&& o.format.mask = o.matchWord ∧
      (o.format.takesData = true ∨ data = []) ∧ i = o.instr cw data := by
  constructor
  · intro h
    unfold decode at h
    split at h
    · cases h
    · rename_i o ho
      split at h
      · cases h
      · rename_i hm
        split at h
        · cases h
        · rename_i hl
          cases h
          refine ⟨o, ofCode_some ho, not_not.mp hm, ?_, rfl⟩
          cases hf : o.format.takesData
          · right
            by_contra hd
            exact hl ⟨hf, hd⟩
          · left; rfl
  · rintro ⟨o, h1, h2, h3, rfl⟩
    have hl : ¬ (o.format.takesData = false ∧ data ≠ []) := by
      rintro ⟨hf, hd⟩
      rcases h3 with h3 | h3
      · rw [hf] at h3; cases h3
      · exact hd h3
    simp only [decode, h1, ofCode_code, h2, ne_eq, not_true_eq_false, if_false, if_neg hl]

/-- When the decoder answers each error (R92, R253). -/
theorem decode_eq_error {cw : CmdWord} {data : List Byte} {e : CmdError} :
    decode cw data = .error e ↔
      (e = .opcode ∧ Op.ofCode (CmdWord.op cw) = none) ∨
      (∃ o : Op, CmdWord.op cw = o.code ∧
        ((e = .field ∧ cw &&& o.format.mask ≠ o.matchWord) ∨
          (e = .len ∧ cw &&& o.format.mask = o.matchWord ∧ o.format.takesData = false ∧ data ≠ []))) := by
  constructor
  · intro h
    unfold decode at h
    split at h
    · rename_i ho; cases h; exact .inl ⟨rfl, ho⟩
    · rename_i o ho
      right
      refine ⟨o, ofCode_some ho, ?_⟩
      split at h
      · rename_i hm; cases h; exact .inl ⟨rfl, hm⟩
      · rename_i hm
        split at h
        · rename_i hl; cases h; exact .inr ⟨rfl, not_not.mp hm, hl.1, hl.2⟩
        · cases h
  · rintro (⟨rfl, h⟩ | ⟨o, h, ⟨rfl, hm⟩ | ⟨rfl, hm, hf, hd⟩⟩)
    · simp only [decode, h]
    · simp only [decode, h, ofCode_code, ne_eq, hm, not_false_eq_true, if_true]
    · simp only [decode, h, ofCode_code, ne_eq, hm, not_true_eq_false, if_false, hf, hd, not_false_eq_true, and_self,
        if_true]

/-! The fields of a packed word (R91). -/

section
variable (op : BitVec 8) (rf or io ps : Bool) (poly init xorout : U16)

theorem getLsbD_ofBool_shift (b : Bool) (k j : Nat) (hk : k < 64) :
    (((BitVec.ofBool b).setWidth 64 : CmdWord) <<< k).getLsbD j = (b && decide (j = k)) := by
  cases b
  · simp
  · by_cases h : j = k
    · subst h; simp [hk]
    · by_cases h' : j < k
      · simp [h', h]
      · have : j - k ≠ 0 := by omega
        simp [h, this]

/-- Bit `j` of a packed word, field by field. -/
theorem getLsbD_pack (j : Nat) (hj : j < 64) :
    (CmdWord.pack op rf or io ps poly init xorout).getLsbD j =
      (op.getLsbD j || (rf && decide (j = 8)) || (or && decide (j = 9)) || (io && decide (j = 10)) ||
        (ps && decide (j = 11)) || (decide (16 ≤ j) && poly.getLsbD (j - 16)) ||
        (decide (32 ≤ j) && init.getLsbD (j - 32)) || (decide (48 ≤ j) && xorout.getLsbD (j - 48))) := by
  have e : ∀ (w : U16) (k : Nat), ((w.setWidth 64 : CmdWord) <<< k).getLsbD j = (decide (k ≤ j) && w.getLsbD (j - k)) := by
    intro w k
    by_cases h : j < k
    · simp [h, Nat.not_le.mpr h]
    · simp [h, Nat.not_lt.mp h, hj]
  simp only [CmdWord.pack, BitVec.getLsbD_or, getLsbD_ofBool_shift _ _ _ (show 8 < 64 by decide),
    getLsbD_ofBool_shift _ _ _ (show 9 < 64 by decide), getLsbD_ofBool_shift _ _ _ (show 10 < 64 by decide),
    getLsbD_ofBool_shift _ _ _ (show 11 < 64 by decide), e, BitVec.getLsbD_setWidth, hj, decide_true, Bool.true_and]

@[simp] theorem pack_op : CmdWord.op (CmdWord.pack op rf or io ps poly init xorout) = op := by
  apply BitVec.eq_of_getLsbD_eq
  intro i hi
  rw [CmdWord.op, BitVec.getLsbD_extractLsb', getLsbD_pack _ _ _ _ _ _ _ _ _ (by omega)]
  interval_cases i <;> simp

@[simp] theorem pack_rf : CmdWord.rf (CmdWord.pack op rf or io ps poly init xorout) = rf := by
  rw [CmdWord.rf, getLsbD_pack _ _ _ _ _ _ _ _ _ (by decide)]
  simp [BitVec.getLsbD_of_ge]

@[simp] theorem pack_or : CmdWord.or (CmdWord.pack op rf or io ps poly init xorout) = or := by
  rw [CmdWord.or, getLsbD_pack _ _ _ _ _ _ _ _ _ (by decide)]
  simp [BitVec.getLsbD_of_ge]

@[simp] theorem pack_io : CmdWord.io (CmdWord.pack op rf or io ps poly init xorout) = io := by
  rw [CmdWord.io, getLsbD_pack _ _ _ _ _ _ _ _ _ (by decide)]
  simp [BitVec.getLsbD_of_ge]

@[simp] theorem pack_ps : CmdWord.ps (CmdWord.pack op rf or io ps poly init xorout) = ps := by
  rw [CmdWord.ps, getLsbD_pack _ _ _ _ _ _ _ _ _ (by decide)]
  simp [BitVec.getLsbD_of_ge]

@[simp] theorem pack_poly : CmdWord.poly (CmdWord.pack op rf or io ps poly init xorout) = poly := by
  apply BitVec.eq_of_getLsbD_eq
  intro i hi
  rw [CmdWord.poly, BitVec.getLsbD_extractLsb', getLsbD_pack _ _ _ _ _ _ _ _ _ (by omega)]
  interval_cases i <;> simp [BitVec.getLsbD_of_ge]

@[simp] theorem pack_init : CmdWord.init (CmdWord.pack op rf or io ps poly init xorout) = init := by
  apply BitVec.eq_of_getLsbD_eq
  intro i hi
  rw [CmdWord.init, BitVec.getLsbD_extractLsb', getLsbD_pack _ _ _ _ _ _ _ _ _ (by omega)]
  interval_cases i <;> simp [BitVec.getLsbD_of_ge]

@[simp] theorem pack_xorout : CmdWord.xorout (CmdWord.pack op rf or io ps poly init xorout) = xorout := by
  apply BitVec.eq_of_getLsbD_eq
  intro i hi
  rw [CmdWord.xorout, BitVec.getLsbD_extractLsb', getLsbD_pack _ _ _ _ _ _ _ _ _ (by omega)]
  interval_cases i <;> simp [BitVec.getLsbD_of_ge]

end

/-- The override of a packed preset word (R97). -/
@[simp] theorem packPreset_initOverride (o : Op) (init : Option U16) (ps : Bool) :
    CmdWord.initOverride (CmdWord.packPreset o init ps) = init := by
  cases init <;> simp [CmdWord.initOverride, CmdWord.packPreset]

@[simp] theorem packPreset_op (o : Op) (init : Option U16) (ps : Bool) :
    CmdWord.op (CmdWord.packPreset o init ps) = o.code := by simp [CmdWord.packPreset]

@[simp] theorem packPreset_ps (o : Op) (init : Option U16) (ps : Bool) :
    CmdWord.ps (CmdWord.packPreset o init ps) = ps := by simp [CmdWord.packPreset]

/-- Two words are equal when they agree at each of the 64 bits. -/
theorem CmdWord.ext_bits {a b : CmdWord} (h : ∀ j, j < 64 → a.getLsbD j = b.getLsbD j) : a = b :=
  BitVec.eq_of_getLsbD_eq h

/-- A word whose reserved bits are zero is packed from its own fields. -/
theorem pack_fields (cw : CmdWord) (h : ∀ j, 12 ≤ j → j < 16 → cw.getLsbD j = false) :
    CmdWord.pack (CmdWord.op cw) (CmdWord.rf cw) (CmdWord.or cw) (CmdWord.io cw) (CmdWord.ps cw) (CmdWord.poly cw)
      (CmdWord.init cw) (CmdWord.xorout cw) = cw := by
  apply CmdWord.ext_bits
  intro j hj
  rw [getLsbD_pack _ _ _ _ _ _ _ _ _ hj]
  simp only [CmdWord.op, CmdWord.rf, CmdWord.or, CmdWord.io, CmdWord.ps, CmdWord.poly, CmdWord.init, CmdWord.xorout,
    BitVec.getLsbD_extractLsb']
  by_cases h1 : 12 ≤ j ∧ j < 16
  · rw [h j h1.1 h1.2]
    obtain ⟨h2, h3⟩ := h1
    interval_cases j <;> simp
  · interval_cases j <;> first | omega | simp

/-- A bit the mask fixes and the match has zero is zero in a legal word. -/
theorem unused_bit {cw m mw : CmdWord} (h : cw &&& m = mw) {j : Nat} (hm : m.getLsbD j = true)
    (hw : mw.getLsbD j = false) : cw.getLsbD j = false := by
  rwa [← h, BitVec.getLsbD_and, hm, Bool.and_true] at hw

/-- The same for a 16-bit field. -/
theorem unused_field {cw m mw : CmdWord} (h : cw &&& m = mw) (k : Nat)
    (hm : ∀ i, i < 16 → m.getLsbD (k + i) = true ∧ mw.getLsbD (k + i) = false) : cw.extractLsb' k 16 = 0#16 := by
  apply BitVec.eq_of_getLsbD_eq
  intro i hi
  rw [BitVec.getLsbD_extractLsb', unused_bit h (hm i hi).1 (hm i hi).2]
  simp

end Sys2Proof
end

