-- ==== Sys2Proof/Laws/State.lean ====
section
/-! SUPPORT. One lemma per field per named update of the state, so that no later proof unfolds a record update; and the fields of
the state after reset. -/

namespace Sys2Proof.Machine

/-! `setDone` (R34). -/

@[simp] theorem setDone_result (s : State) : (setDone s).result = s.result := rfl
@[simp] theorem setDone_status (s : State) : (setDone s).status = Status.withOutcome s.status true 0#3 := rfl
@[simp] theorem setDone_tbl (s : State) : (setDone s).tbl = s.tbl := rfl
@[simp] theorem setDone_pending (s : State) : (setDone s).pending = s.pending := rfl
@[simp] theorem setDone_returned (s : State) : (setDone s).returned = s.returned := rfl
@[simp] theorem setDone_freeCount (s : State) : (setDone s).freeCount = s.freeCount := rfl
@[simp] theorem setDone_runMark (s : State) : (setDone s).runMark = s.runMark := rfl

/-! `raiseErr` (R252). -/

@[simp] theorem raiseErr_result (e : CmdError) (s : State) : (raiseErr e s).result = s.result := rfl
@[simp] theorem raiseErr_status (e : CmdError) (s : State) : (raiseErr e s).status = Status.withOutcome s.status false (errCode e) := rfl
@[simp] theorem raiseErr_tbl (e : CmdError) (s : State) : (raiseErr e s).tbl = s.tbl := rfl
@[simp] theorem raiseErr_pending (e : CmdError) (s : State) : (raiseErr e s).pending = s.pending := rfl
@[simp] theorem raiseErr_returned (e : CmdError) (s : State) : (raiseErr e s).returned = s.returned := rfl
@[simp] theorem raiseErr_freeCount (e : CmdError) (s : State) : (raiseErr e s).freeCount = s.freeCount := rfl
@[simp] theorem raiseErr_runMark (e : CmdError) (s : State) : (raiseErr e s).runMark = s.runMark := rfl

/-! `writeTbl` (R70). -/

@[simp] theorem writeTbl_result (i : Byte) (v : U16) (s : State) : (writeTbl i v s).result = s.result := rfl
@[simp] theorem writeTbl_status (i : Byte) (v : U16) (s : State) : (writeTbl i v s).status = s.status := rfl
@[simp] theorem writeTbl_tbl (i : Byte) (v : U16) (s : State) : (writeTbl i v s).tbl = Memory.write s.tbl i.toNat v := rfl
@[simp] theorem writeTbl_pending (i : Byte) (v : U16) (s : State) : (writeTbl i v s).pending = s.pending := rfl
@[simp] theorem writeTbl_returned (i : Byte) (v : U16) (s : State) : (writeTbl i v s).returned = s.returned := rfl
@[simp] theorem writeTbl_freeCount (i : Byte) (v : U16) (s : State) : (writeTbl i v s).freeCount = s.freeCount := rfl
@[simp] theorem writeTbl_runMark (i : Byte) (v : U16) (s : State) : (writeTbl i v s).runMark = s.runMark := rfl

/-! `writeAllTbl` (R141). -/

@[simp] theorem writeAllTbl_result (f : Byte → U16) (s : State) : (writeAllTbl f s).result = s.result := rfl
@[simp] theorem writeAllTbl_status (f : Byte → U16) (s : State) : (writeAllTbl f s).status = s.status := rfl
@[simp] theorem writeAllTbl_tbl (f : Byte → U16) (s : State) : (writeAllTbl f s).tbl = Memory.full f := rfl
@[simp] theorem writeAllTbl_pending (f : Byte → U16) (s : State) : (writeAllTbl f s).pending = s.pending := rfl
@[simp] theorem writeAllTbl_returned (f : Byte → U16) (s : State) : (writeAllTbl f s).returned = s.returned := rfl
@[simp] theorem writeAllTbl_freeCount (f : Byte → U16) (s : State) : (writeAllTbl f s).freeCount = s.freeCount := rfl
@[simp] theorem writeAllTbl_runMark (f : Byte → U16) (s : State) : (writeAllTbl f s).runMark = s.runMark := rfl

/-! `hReset` (R280). -/

@[simp] theorem hReset_result (s : State) : (hReset s).result = 0x0000#16 := rfl
@[simp] theorem hReset_status (s : State) : (hReset s).status = 0x0000#16 := rfl
@[simp] theorem hReset_tbl (s : State) : (hReset s).tbl = [] := rfl
@[simp] theorem hReset_pending (s : State) : (hReset s).pending = s.pending := rfl
@[simp] theorem hReset_returned (s : State) : (hReset s).returned = s.returned := rfl
@[simp] theorem hReset_freeCount (s : State) : (hReset s).freeCount = s.freeCount := rfl
@[simp] theorem hReset_runMark (s : State) : (hReset s).runMark = s.runMark := rfl

/-! `hReturn` (R70). -/

@[simp] theorem hReturn_result (v : U16) (s : State) : (hReturn v s).result = s.result := rfl
@[simp] theorem hReturn_status (v : U16) (s : State) : (hReturn v s).status = s.status := rfl
@[simp] theorem hReturn_tbl (v : U16) (s : State) : (hReturn v s).tbl = s.tbl := rfl
@[simp] theorem hReturn_pending (v : U16) (s : State) : (hReturn v s).pending = s.pending := rfl
@[simp] theorem hReturn_returned (v : U16) (s : State) : (hReturn v s).returned = some v := rfl
@[simp] theorem hReturn_freeCount (v : U16) (s : State) : (hReturn v s).freeCount = s.freeCount := rfl
@[simp] theorem hReturn_runMark (v : U16) (s : State) : (hReturn v s).runMark = s.runMark := rfl

/-! `takeAction` (R72). -/

@[simp] theorem takeAction_result (rest : List HostAction) (s : State) : (takeAction rest s).result = s.result := rfl
@[simp] theorem takeAction_status (rest : List HostAction) (s : State) : (takeAction rest s).status = s.status := rfl
@[simp] theorem takeAction_tbl (rest : List HostAction) (s : State) : (takeAction rest s).tbl = s.tbl := rfl
@[simp] theorem takeAction_pending (rest : List HostAction) (s : State) : (takeAction rest s).pending = rest := rfl
@[simp] theorem takeAction_returned (rest : List HostAction) (s : State) : (takeAction rest s).returned = none := rfl
@[simp] theorem takeAction_freeCount (rest : List HostAction) (s : State) : (takeAction rest s).freeCount = s.freeCount := rfl
@[simp] theorem takeAction_runMark (rest : List HostAction) (s : State) : (takeAction rest s).runMark = s.runMark := rfl

/-! The state after reset (R40). -/

@[simp] theorem reset_result : State.reset.result = 0x0000#16 := rfl
@[simp] theorem reset_status : State.reset.status = 0x0000#16 := rfl
@[simp] theorem reset_tbl : State.reset.tbl = [] := rfl
@[simp] theorem reset_pending : State.reset.pending = [] := rfl
@[simp] theorem reset_returned : State.reset.returned = none := rfl
@[simp] theorem reset_freeCount : State.reset.freeCount = 0 := rfl
@[simp] theorem reset_runMark : State.reset.runMark = none := rfl

end Sys2Proof.Machine
end

