-- ==== Sys2Proof/Laws/Status.lean ====
section
/-! SUPPORT. The fields of `STATUS` after each of the two ways it is written (spec/10_state.md R33, R34). -/

namespace Sys2Proof.Machine

@[simp] theorem withOutcome_done (st : U16) (d : Bool) (e : BitVec 3) :
    Status.done (Status.withOutcome st d e) = d := by
  cases d <;> simp [Status.done, Status.withOutcome]

@[simp] theorem withOutcome_err (st : U16) (d : Bool) (e : BitVec 3) :
    Status.err (Status.withOutcome st d e) = e := by
  apply BitVec.eq_of_getLsbD_eq
  intro i hi
  cases d <;> interval_cases i <;> simp [Status.err, Status.withOutcome]

@[simp] theorem withOutcome_torient (st : U16) (d : Bool) (e : BitVec 3) :
    Status.torient (Status.withOutcome st d e) = Status.torient st := by
  cases d <;> simp [Status.torient, Status.withOutcome]

@[simp] theorem withOutcome_upper (st : U16) (d : Bool) (e : BitVec 3) :
    Status.upper (Status.withOutcome st d e) = Status.upper st := by
  apply BitVec.eq_of_getLsbD_eq
  intro i hi
  cases d <;> interval_cases i <;> simp [Status.upper, Status.withOutcome]

@[simp] theorem withTorient_done (st : U16) (o : Orientation) :
    Status.done (Status.withTorient st o) = Status.done st := by
  cases o <;> simp [Status.done, Status.withTorient, Orientation.bit]

@[simp] theorem withTorient_err (st : U16) (o : Orientation) :
    Status.err (Status.withTorient st o) = Status.err st := by
  apply BitVec.eq_of_getLsbD_eq
  intro i hi
  cases o <;> interval_cases i <;> simp [Status.err, Status.withTorient, Orientation.bit]

@[simp] theorem withTorient_torient (st : U16) (o : Orientation) :
    Status.torient (Status.withTorient st o) = o.bit := by
  cases o <;> simp [Status.torient, Status.withTorient, Orientation.bit]

@[simp] theorem withTorient_upper (st : U16) (o : Orientation) :
    Status.upper (Status.withTorient st o) = Status.upper st := by
  apply BitVec.eq_of_getLsbD_eq
  intro i hi
  cases o <;> interval_cases i <;> simp [Status.upper, Status.withTorient, Orientation.bit]

/-- `DONE` and `ERR` of the state before do not enter `STATUS` after a command. -/
theorem withOutcome_congr (st st' : U16) (d : Bool) (e : BitVec 3) (h : st &&& 0xFFF0#16 = st' &&& 0xFFF0#16) :
    Status.withOutcome st d e = Status.withOutcome st' d e := by
  simp [Status.withOutcome, h]

/-- A word whose `DONE`, `ERR`, `TORIENT` and other bits agree with another's is that word. -/
theorem status_ext {a b : U16} (h0 : Status.done a = Status.done b) (h1 : Status.err a = Status.err b)
    (h2 : Status.torient a = Status.torient b) (h3 : Status.upper a = Status.upper b) : a = b := by
  apply BitVec.eq_of_getLsbD_eq
  intro i hi
  have e1 : ∀ k, k < 3 → a.getLsbD (1 + k) = b.getLsbD (1 + k) := fun k hk => by
    simpa [Status.err, hk] using congrArg (fun w : BitVec 3 => w.getLsbD k) h1
  have e3 : ∀ k, k < 11 → a.getLsbD (5 + k) = b.getLsbD (5 + k) := fun k hk => by
    simpa [Status.upper, hk] using congrArg (fun w : BitVec 11 => w.getLsbD k) h3
  obtain rfl | ⟨k, hk, rfl⟩ | rfl | ⟨k, hk, rfl⟩ :
      i = 0 ∨ (∃ k, k < 3 ∧ i = 1 + k) ∨ i = 4 ∨ ∃ k, k < 11 ∧ i = 5 + k := by
    by_cases c0 : i = 0
    · exact .inl c0
    by_cases c1 : i < 4
    · exact .inr (.inl ⟨i - 1, by omega, by omega⟩)
    by_cases c2 : i = 4
    · exact .inr (.inr (.inl c2))
    · exact .inr (.inr (.inr ⟨i - 5, by omega, by omega⟩))
  · exact h0
  · exact e1 k hk
  · exact h2
  · exact e3 k hk

end Sys2Proof.Machine
end

