-- ==== Sys2Proof/Laws/Memory.lean ====
section
/-! SUPPORT. The table buffer: read after write, every operation keeps the canonical form, and what reading an entry can do. -/

namespace Sys2Proof.Machine

@[simp] theorem read_nil (i : Nat) : Memory.read? [] i = none := rfl

theorem read_cons (a : Nat) (v : U16) (m : Memory) (i : Nat) :
    Memory.read? ((a, v) :: m) i = if a = i then some v else Memory.read? m i := rfl

/-- Read after write: the written entry reads as written, and every other entry reads as before. -/
theorem read_write (m : Memory) (i : Nat) (v : U16) (j : Nat) :
    Memory.read? (Memory.write m i v) j = if j = i then some v else Memory.read? m j := by
  induction m with
  | nil =>
    rw [Memory.write, read_cons, read_nil]
    by_cases h : j = i
    · rw [if_pos h.symm, if_pos h]
    · rw [if_neg (Ne.symm h), if_neg h]
  | cons c m ih =>
    obtain ⟨a, w⟩ := c
    by_cases h : j = i
    · subst h
      rw [if_pos rfl]
      by_cases h1 : j < a
      · simp [Memory.write, h1, read_cons]
      · by_cases h2 : j = a
        · simp [Memory.write, h2, read_cons]
        · simp [Memory.write, h1, h2, read_cons, Ne.symm h2, ih]
    · have h' : ¬ i = j := Ne.symm h
      rw [if_neg h] at ih ⊢
      by_cases h1 : i < a
      · simp [Memory.write, h1, read_cons, h']
      · by_cases h2 : i = a
        · subst h2; simp [Memory.write, read_cons, h']
        · simp [Memory.write, h1, h2, read_cons, ih]

theorem wfFrom_write (m : Memory) (lo i : Nat) (v : U16) (hlo : lo ≤ i) (hi : i < 256)
    (h : Memory.wfFrom lo m = true) : Memory.wfFrom lo (Memory.write m i v) = true := by
  induction m generalizing lo with
  | nil => simp [Memory.write, Memory.wfFrom, hlo, hi]
  | cons c m ih =>
    obtain ⟨a, w⟩ := c
    simp only [Memory.wfFrom, Bool.and_eq_true, decide_eq_true_eq] at h
    obtain ⟨⟨h1, h2⟩, h3⟩ := h
    by_cases c1 : i < a
    · simp [Memory.write, c1, Memory.wfFrom, hlo, hi, h2, h3, Nat.succ_le_of_lt c1]
    · by_cases c2 : i = a
      · subst c2
        simp [Memory.write, Memory.wfFrom, hlo, hi, h3]
      · simp [Memory.write, c1, c2, Memory.wfFrom, h1, h2]
        exact ih (a + 1) (by omega) h3

/-- A write of one entry keeps the canonical form. -/
theorem wf_write (m : Memory) (i : Byte) (v : U16) (h : Memory.wf m = true) :
    Memory.wf (Memory.write m i.toNat v) = true :=
  wfFrom_write m 0 i.toNat v (Nat.zero_le _) i.isLt h

theorem wfFrom_map_range' (f : Nat → U16) (lo n : Nat) (h : lo + n ≤ 256) :
    Memory.wfFrom lo ((List.range' lo n).map (fun b => (b, f b))) = true := by
  induction n generalizing lo with
  | zero => rfl
  | succ n ih =>
    simp only [List.range'_succ, List.map_cons, Memory.wfFrom, Bool.and_eq_true, decide_eq_true_eq]
    exact ⟨⟨Nat.le_refl _, by omega⟩, ih (lo + 1) (by omega)⟩

/-- A write of all entries gives the canonical form. -/
theorem wf_full (f : Byte → U16) : Memory.wf (Memory.full f) = true := by
  rw [Memory.full, List.range_eq_range']
  exact wfFrom_map_range' _ 0 256 (by omega)

theorem read_map_range' (f : Nat → U16) (lo n i : Nat) :
    Memory.read? ((List.range' lo n).map (fun b => (b, f b))) i =
      if lo ≤ i ∧ i < lo + n then some (f i) else none := by
  induction n generalizing lo with
  | zero => simp
  | succ n ih =>
    rw [List.range'_succ, List.map_cons, read_cons, ih]
    by_cases h : lo = i
    · subst h; simp
    · rw [if_neg h]
      by_cases h' : lo ≤ i ∧ i < lo + (n + 1)
      · rw [if_pos h', if_pos (by omega)]
      · rw [if_neg h', if_neg (by omega)]

/-- After a write of all entries, entry `b` reads as `f b`. -/
@[simp] theorem read_full (f : Byte → U16) (b : Byte) : Memory.read? (Memory.full f) b.toNat = some (f b) := by
  have hb : b.toNat < 0 + 256 := by have := b.isLt; omega
  rw [Memory.full, List.range_eq_range', read_map_range', if_pos ⟨Nat.zero_le _, hb⟩, BitVec.ofNat_toNat,
    BitVec.setWidth_eq]

/-- Two canonical buffers with the same entries from `lo` on are the same list. -/
theorem wfFrom_ext (m₁ m₂ : Memory) (lo : Nat) (h₁ : Memory.wfFrom lo m₁ = true) (h₂ : Memory.wfFrom lo m₂ = true)
    (h : ∀ i, Memory.read? m₁ i = Memory.read? m₂ i) : m₁ = m₂ := by
  have low : ∀ (m : Memory) (lo i : Nat), Memory.wfFrom lo m = true → i < lo → Memory.read? m i = none := by
    intro m
    induction m with
    | nil => intros; rfl
    | cons c m ih =>
      intro lo i hw hi
      obtain ⟨a, w⟩ := c
      simp only [Memory.wfFrom, Bool.and_eq_true, decide_eq_true_eq] at hw
      rw [read_cons, if_neg (by omega)]
      exact ih (a + 1) i hw.2 (by omega)
  induction m₁ generalizing m₂ lo with
  | nil =>
    cases m₂ with
    | nil => rfl
    | cons c m₂ => have := h c.1; rw [read_nil, read_cons c.1 c.2, if_pos rfl] at this; simp at this
  | cons c m₁ ih =>
    obtain ⟨a, w⟩ := c
    cases m₂ with
    | nil => have := h a; simp [read_cons] at this
    | cons d m₂ =>
      obtain ⟨b, u⟩ := d
      simp only [Memory.wfFrom, Bool.and_eq_true, decide_eq_true_eq] at h₁ h₂
      have hab : a = b := by
        by_contra hne
        rcases Nat.lt_or_gt_of_ne hne with hlt | hlt
        · have := h a
          rw [read_cons, if_pos rfl, read_cons, if_neg (by omega), low m₂ (b + 1) a h₂.2 (by omega)] at this
          simp at this
        · have := h b
          rw [read_cons, if_neg (by omega), low m₁ (a + 1) b h₁.2 (by omega), read_cons, if_pos rfl] at this
          simp at this
      subst hab
      have hw : w = u := by have := h a; simpa [read_cons] using this
      subst hw
      rw [ih m₂ (a + 1) h₁.2 h₂.2]
      intro i
      by_cases hi : a = i
      · subst hi
        rw [low m₁ (a + 1) a h₁.2 (by omega), low m₂ (a + 1) a h₂.2 (by omega)]
      · have := h i
        rwa [read_cons, if_neg hi, read_cons, if_neg hi] at this

/-- Everything a read of an entry can do: a written entry gives its value and changes nothing; an unwritten one gives the next
free value, counts it and marks the run. -/
theorem readTbl_cases (i : Byte) (s : State) :
    (∃ v, Memory.read? s.tbl i.toNat = some v ∧ readTbl i s = (v, s)) ∨
    (Memory.read? s.tbl i.toNat = none ∧
      readTbl i s = (Config.freeTbl s.freeCount,
        { s with freeCount := s.freeCount + 1, runMark := s.runMark.or (some (.unwrittenEntry i)) })) := by
  cases h : Memory.read? s.tbl i.toNat with
  | some v => exact .inl ⟨v, rfl, by simp [readTbl, h]⟩
  | none => exact .inr ⟨rfl, by simp [readTbl, h]⟩

/-- A read of an entry changes the count and the mark at most. -/
theorem readTbl_frame (i : Byte) (s : State) :
    (readTbl i s).2 = { s with freeCount := (readTbl i s).2.freeCount, runMark := (readTbl i s).2.runMark } := by
  obtain ⟨v, -, h⟩ | ⟨-, h⟩ := readTbl_cases i s <;> rw [h]

/-- On a written buffer a read gives the entry and changes nothing. -/
theorem readTbl_written (i : Byte) (s : State) (h : s.tblWritten) : readTbl i s = (s.tblEntry i, s) := by
  obtain ⟨v, hv, h'⟩ | ⟨hv, -⟩ := readTbl_cases i s
  · rw [h', State.tblEntry, hv]; rfl
  · have := h i; rw [hv] at this; simp at this

/-- A read that leaves no mark read a written entry. -/
theorem readTbl_unmarked (i : Byte) (s : State) (h : (readTbl i s).2.runMark = none) :
    s.runMark = none ∧ readTbl i s = (s.tblEntry i, s) := by
  obtain ⟨v, hv, h'⟩ | ⟨-, h'⟩ := readTbl_cases i s
  · rw [h'] at h
    exact ⟨h, by rw [h', State.tblEntry, hv]; rfl⟩
  · rw [h'] at h
    cases hm : s.runMark <;> simp [hm] at h

/-- A write of all entries leaves every entry written. -/
theorem tblWritten_writeAll (f : Byte → U16) (s : State) : (writeAllTbl f s).tblWritten := by
  intro i; simp

/-- A write of one entry leaves written entries written. -/
theorem tblWritten_write (i : Byte) (v : U16) (s : State) (h : s.tblWritten) : (writeTbl i v s).tblWritten := by
  intro j
  rw [writeTbl_tbl, read_write]
  split
  · rfl
  · exact h j

end Sys2Proof.Machine
end

