-- ==== Sys2Proof/Laws/Engines.lean ====
section
/-! SUPPORT. The engines: the step functions over xor, the table engine over `TBL`, and the loops over a buffer in two pieces. -/

namespace Sys2Proof.Machine

/-- Xor in any order. -/
theorem U16.xor_left_comm (a b c : U16) : a ^^^ (b ^^^ c) = b ^^^ (a ^^^ c) := by
  rw [← BitVec.xor_assoc, BitVec.xor_comm a b, BitVec.xor_assoc]

/-- A step most significant bit first is linear over xor in the register (spec/41_table_builder.md R145 (c)). -/
theorem shiftHigh_xor (p a b : U16) : shiftHigh p (a ^^^ b) = shiftHigh p a ^^^ shiftHigh p b := by
  have hs : (a ^^^ b) <<< 1 = (a <<< 1) ^^^ (b <<< 1) := BitVec.shiftLeft_xor_distrib ..
  simp only [shiftHigh, BitVec.getLsbD_xor, hs]
  cases a.getLsbD 15 <;> cases b.getLsbD 15 <;>
    simp [BitVec.xor_assoc, BitVec.xor_comm, U16.xor_left_comm]

/-- A step least significant bit first is linear over xor in the register. -/
theorem shiftLow_xor (p a b : U16) : shiftLow p (a ^^^ b) = shiftLow p a ^^^ shiftLow p b := by
  have hs : (a ^^^ b) >>> 1 = (a >>> 1) ^^^ (b >>> 1) := BitVec.ushiftRight_xor_distrib ..
  simp only [shiftLow, BitVec.getLsbD_xor, hs]
  cases a.getLsbD 0 <;> cases b.getLsbD 0 <;>
    simp [BitVec.xor_assoc, BitVec.xor_comm, U16.xor_left_comm]

/-- Any number of rounds of a map that is linear over xor is linear over xor. -/
theorem iterate_xor {f : U16 → U16} (h : ∀ a b, f (a ^^^ b) = f a ^^^ f b) (n : Nat) (a b : U16) :
    Nat.iterate f n (a ^^^ b) = Nat.iterate f n a ^^^ Nat.iterate f n b := by
  induction n generalizing a b with
  | zero => rfl
  | succ n ih => simp only [Function.iterate_succ, Function.comp_apply, h, ih]

/-- The table engine over a buffer in two pieces. -/
theorem crcTable_append (t : Byte → U16) (o : Orientation) (init : U16) (a b : List Byte) :
    crcTable t o init (a ++ b) = crcTable t o (crcTable t o init a) b :=
  List.foldl_append ..

/-- The bitwise engine over a buffer in two pieces. -/
theorem crcBitwise_append (p init : U16) (r : Bool) (a b : List Byte) :
    crcBitwise (a ++ b) p init r = crcBitwise b p (crcBitwise a p init r) r :=
  List.foldl_append ..

/-- The engine over `TBL` changes the count and the mark at most. -/
theorem crcTbl_frame (o : Orientation) (data : List Byte) (reg : U16) (s : State) :
    (crcTbl o data reg s).2 =
      { s with freeCount := (crcTbl o data reg s).2.freeCount, runMark := (crcTbl o data reg s).2.runMark } := by
  induction data generalizing reg s with
  | nil => rfl
  | cons b bs ih =>
    simp only [crcTbl]
    rw [ih, readTbl_frame]

/-- The engine over `TBL` over a buffer in two pieces. -/
theorem crcTbl_append (o : Orientation) (a b : List Byte) (reg : U16) (s : State) :
    crcTbl o (a ++ b) reg s = crcTbl o b (crcTbl o a reg s).1 (crcTbl o a reg s).2 := by
  induction a generalizing reg s with
  | nil => rfl
  | cons c cs ih => simp only [List.cons_append, crcTbl, ih]

/-- A byte whose index is written: the step of the engine, and nothing changes. -/
theorem crcTbl_cons_written {o : Orientation} {b : Byte} {reg v : U16} {s : State} (bs : List Byte)
    (h : Memory.read? s.tbl (crcIndex o reg b).toNat = some v) :
    crcTbl o (b :: bs) reg s = crcTbl o bs (crcUpdate o reg v) s := by
  simp only [crcTbl, readTbl, h]

/-- A byte whose index is unwritten: a free value, counted, and the mark. -/
theorem crcTbl_cons_unwritten {o : Orientation} {b : Byte} {reg : U16} {s : State} (bs : List Byte)
    (h : Memory.read? s.tbl (crcIndex o reg b).toNat = none) :
    crcTbl o (b :: bs) reg s = crcTbl o bs (crcUpdate o reg (Config.freeTbl s.freeCount))
      { s with freeCount := s.freeCount + 1, runMark := s.runMark.or (some (.unwrittenEntry (crcIndex o reg b))) } := by
  simp only [crcTbl, readTbl, h]

/-- On a written buffer the engine over `TBL` is the table engine on its entries, and changes nothing. -/
theorem crcTbl_written (o : Orientation) (data : List Byte) (reg : U16) (s : State) (h : s.tblWritten) :
    crcTbl o data reg s = (crcTable s.tblEntry o reg data, s) := by
  induction data generalizing reg with
  | nil => rfl
  | cons b bs ih =>
    simp only [crcTbl, readTbl_written _ s h, ih]
    rfl

/-- Reading entries never takes a mark off a run. -/
theorem crcTbl_mark (o : Orientation) (data : List Byte) (reg : U16) (s : State) (f : Fault) (h : s.runMark = some f) :
    (crcTbl o data reg s).2.runMark = some f := by
  induction data generalizing reg s with
  | nil => exact h
  | cons b bs ih =>
    apply ih
    obtain ⟨v, -, h'⟩ | ⟨-, h'⟩ := readTbl_cases (crcIndex o reg b) s <;> rw [h']
    · exact h
    · simp [h]

/-- A run of the engine over `TBL` that leaves no mark has read written entries only. -/
theorem crcTbl_unmarked (o : Orientation) (data : List Byte) (reg : U16) (s : State)
    (h : (crcTbl o data reg s).2.runMark = none) :
    s.runMark = none ∧ crcTbl o data reg s = (crcTable s.tblEntry o reg data, s) := by
  induction data generalizing reg s with
  | nil => exact ⟨h, rfl⟩
  | cons b bs ih =>
    simp only [crcTbl] at h
    obtain ⟨h1, h2⟩ := ih _ _ h
    obtain ⟨h3, h4⟩ := readTbl_unmarked _ _ h1
    refine ⟨h3, ?_⟩
    rw [h4] at h2
    simp only [crcTbl, h4, h2]
    rfl

/-- Everything `finish` does. -/
theorem finish_eq (v : U16) (s : State) :
    finish v s = .next { s with result := v, status := Status.withOutcome s.status true 0#3 } := rfl

/-- Everything a preset does: it completes, and changes `RESULT`, `DONE` and `ERR` only. -/
theorem runPreset_eq (row : CatRow) (init : Option U16) (data : List Byte) (s : State) :
    runPreset row init data s =
      .next { s with result := runEngine row.engine data (initEff init row.init) ^^^ row.xorout,
                     status := Status.withOutcome s.status true 0#3 } := rfl

end Sys2Proof.Machine
end

