-- ==== Sys2Proof/Laws/Exec.lean ====
section
/-! SUPPORT. What a command and a step can do, said once: the statements about the whole machine cite these and unfold neither
`exec` nor `step`. -/

namespace Sys2Proof.Machine

/-- Everything a command does (spec/10_state.md R41). `TABLE16` writes the table, `TORIENT`, `DONE` and `ERR`; `CRCTBL` writes
`RESULT`, `DONE` and `ERR` from what it reads in `TBL`, and the model's own count and mark; every other command writes `RESULT`,
`DONE` and `ERR`, with a value that is the same in every state. -/
theorem exec_cases (i : Instr) (s : State) :
    (∃ p, i = .table16 p ∧ exec i s = .next
      { s with tbl := Memory.full (tableEntry (orientOf p) p),
               status := Status.withOutcome (Status.withTorient s.status (orientOf p)) true 0#3 }) ∨
    (∃ o init data, i = .crctbl o init data ∧ exec i s = .next
      { s with result := (crcTbl o data init s).1, status := Status.withOutcome s.status true 0#3,
               freeCount := (crcTbl o data init s).2.freeCount, runMark := (crcTbl o data init s).2.runMark }) ∨
    (∃ v, (∀ p, i ≠ .table16 p) ∧ (∀ o init data, i ≠ .crctbl o init data) ∧
      ∀ s : State, exec i s = .next { s with result := v, status := Status.withOutcome s.status true 0#3 }) := by
  cases i with
  | table16 p => exact .inl ⟨p, rfl, rfl⟩
  | crctbl o n d =>
    refine .inr (.inl ⟨o, n, d, rfl, ?_⟩)
    simp only [exec, execCrctbl, finish_eq]
    rw [crcTbl_frame]
  | reflect16 x => exact .inr (.inr ⟨reflect16 x, by simp, by simp, fun _ => rfl⟩)
  | hacker16 p n x r d => exact .inr (.inr ⟨crcBitwise d p n r ^^^ x, by simp, by simp, fun _ => rfl⟩)
  | modbus n d => exact .inr (.inr ⟨runEngine catModbus.engine d (initEff n catModbus.init) ^^^ catModbus.xorout, by simp, by simp, fun _ => rfl⟩)
  | usb16 n d => exact .inr (.inr ⟨runEngine catUsb16.engine d (initEff n catUsb16.init) ^^^ catUsb16.xorout, by simp, by simp, fun _ => rfl⟩)
  | ibm n a d => exact .inr (.inr ⟨runEngine (ibmRow a).engine d (initEff n (ibmRow a).init) ^^^ (ibmRow a).xorout, by simp, by simp, fun _ => rfl⟩)
  | xmodem n d => exact .inr (.inr ⟨runEngine catXmodem.engine d (initEff n catXmodem.init) ^^^ catXmodem.xorout, by simp, by simp, fun _ => rfl⟩)
  | ccittFalse n d => exact .inr (.inr ⟨runEngine catCcittFalse.engine d (initEff n catCcittFalse.init) ^^^ catCcittFalse.xorout, by simp, by simp, fun _ => rfl⟩)
  | kermit n d => exact .inr (.inr ⟨runEngine catKermit.engine d (initEff n catKermit.init) ^^^ catKermit.xorout, by simp, by simp, fun _ => rfl⟩)
  | mcrf4xx n d => exact .inr (.inr ⟨runEngine catMcrf4xx.engine d (initEff n catMcrf4xx.init) ^^^ catMcrf4xx.xorout, by simp, by simp, fun _ => rfl⟩)
  | x25 n d => exact .inr (.inr ⟨runEngine catX25.engine d (initEff n catX25.init) ^^^ catX25.xorout, by simp, by simp, fun _ => rfl⟩)
  | sick n d => exact .inr (.inr ⟨runEngine catSick.engine d (initEff n catSick.init) ^^^ catSick.xorout, by simp, by simp, fun _ => rfl⟩)
  | dnp n d => exact .inr (.inr ⟨runEngine catDnp.engine d (initEff n catDnp.init) ^^^ catDnp.xorout, by simp, by simp, fun _ => rfl⟩)
  | maxim16 n d => exact .inr (.inr ⟨runEngine catMaxim16.engine d (initEff n catMaxim16.init) ^^^ catMaxim16.xorout, by simp, by simp, fun _ => rfl⟩)
  | dect n d => exact .inr (.inr ⟨runEngine catDect.engine d (initEff n catDect.init) ^^^ catDect.xorout, by simp, by simp, fun _ => rfl⟩)
  | inet d => exact .inr (.inr ⟨checksumInternet d, by simp, by simp, fun _ => rfl⟩)
  | fletcher16 d => exact .inr (.inr ⟨fletcher16 d, by simp, by simp, fun _ => rfl⟩)

/-- What `H-ISSUE` can do (spec/30_encoding.md R92): run the command the word decodes to, or reject the word. -/
theorem hIssue_cases (cw : CmdWord) (data : List Byte) (s : State) :
    (∃ i, decode cw data = .ok i ∧ hIssue cw data s = exec i s) ∨
    (∃ e, decode cw data = .error e ∧ hIssue cw data s = .next (raiseErr e s)) := by
  cases h : decode cw data with
  | ok i => exact .inl ⟨i, rfl, by rw [hIssue, h]⟩
  | error e => exact .inr ⟨e, rfl, by rw [hIssue, h]⟩

/-- What a step can do: nothing when the host has no action to come, and otherwise that action. -/
theorem step_cases {s t : State} (h : step s = .next t) :
    (s.pending = [] ∧ t = s) ∨
    (∃ a rest, s.pending = a :: rest ∧ hostAct a (takeAction rest s) = .next t) := by
  unfold step at h
  split at h
  · rename_i hp
    cases h
    exact .inl ⟨hp, rfl⟩
  · rename_i a rest hp
    exact .inr ⟨a, rest, hp, h⟩

end Sys2Proof.Machine
end

