-- ==== Sys2Proof/Laws/PerInstr.lean ====
section
/-! SUPPORT. Statements about every command as syntax, one lemma per constructor. Family `EncodeLegal`: the word the encoder
writes passes the decoder's test of its row (spec/30_encoding.md R92 step 2, R100): it agrees with `match` under `mask`. -/

namespace Sys2Proof.Laws.EncodeLegal

open Sys2Proof

/-- The word of a command is a legal encoding of its row. -/
def Statement (i : Instr) : Prop := encode i &&& i.op.format.mask = i.op.matchWord

/-- A word packed from fields of which those the format does not use are zero agrees with `match` under `mask`. -/
theorem pack_legal (o : Op) (rf or io ps : Bool) (poly init xorout : U16)
    (h : ∀ j, j < 64 → (o.format.mask.getLsbD j && !(decide (j < 8))) = true →
      (CmdWord.pack o.code rf or io ps poly init xorout).getLsbD j = false)
    (hm : ∀ j, j < 8 → o.format.mask.getLsbD j = true) :
    CmdWord.pack o.code rf or io ps poly init xorout &&& o.format.mask = o.matchWord := by
  apply CmdWord.ext_bits
  intro j hj
  rw [BitVec.getLsbD_and, Op.matchWord, BitVec.getLsbD_setWidth]
  by_cases h8 : j < 8
  · have hop : (CmdWord.op (CmdWord.pack o.code rf or io ps poly init xorout)).getLsbD j = o.code.getLsbD j := by
      rw [pack_op]
    rw [CmdWord.op, BitVec.getLsbD_extractLsb'] at hop
    simp only [h8, decide_true, Bool.true_and, Nat.zero_add] at hop
    rw [hm j h8, hop, Bool.and_true, decide_eq_true hj, Bool.true_and]
  · have hge : o.code.getLsbD j = false := BitVec.getLsbD_of_ge _ _ (by omega)
    rw [hge]
    cases hk : o.format.mask.getLsbD j
    · simp
    · rw [h j hj (by simp [hk, h8])]
      simp

/-- The word of a preset is legal: its mask leaves `IO` and `INIT` free, and `PS` where it may be one. -/
theorem preset_legal (o : Op) (init : Option U16) (ps : Bool)
    (h : ∀ j, j < 64 → (o.format.mask.getLsbD j = true → ¬ j = 10 ∧ ¬ (32 ≤ j ∧ j < 48) ∧ ¬ (ps = true ∧ j = 11)) ∧
      (j < 8 → o.format.mask.getLsbD j = true)) :
    CmdWord.packPreset o init ps &&& o.format.mask = o.matchWord := by
  refine pack_legal o _ _ _ _ _ _ _ (fun j hj hk => ?_) (fun j hj => (h j (by omega)).2 hj)
  simp only [Bool.and_eq_true, Bool.not_eq_true', decide_eq_false_iff_not] at hk
  obtain ⟨h1, h2, h3⟩ := (h j hj).1 hk.1
  have hop : o.code.getLsbD j = false := BitVec.getLsbD_of_ge _ _ (by omega)
  have hin : (decide (32 ≤ j) && (init.getD 0#16).getLsbD (j - 32)) = false := by
    by_cases h4 : 32 ≤ j
    · rw [BitVec.getLsbD_of_ge _ _ (by omega), Bool.and_false]
    · simp [h4]
  have hps : (ps && decide (j = 11)) = false := by
    cases ps
    · rfl
    · simpa using h3
  rw [getLsbD_pack _ _ _ _ _ _ _ _ _ hj, hop, hin, hps]
  simp [h1]

theorem reflect16 (x : U16) : Statement (.reflect16 x) := by
  refine pack_legal .reflect16 _ _ _ _ _ _ _ (fun j hj => ?_) (by decide)
  rw [getLsbD_pack _ _ _ _ _ _ _ _ _ hj]
  interval_cases j <;> simp [Op.format, Format.mask, Op.code, BitVec.getLsbD_of_ge]

theorem table16 (p : U16) : Statement (.table16 p) := by
  refine pack_legal .table16 _ _ _ _ _ _ _ (fun j hj => ?_) (by decide)
  rw [getLsbD_pack _ _ _ _ _ _ _ _ _ hj]
  interval_cases j <;> simp [Op.format, Format.mask, Op.code, BitVec.getLsbD_of_ge]

theorem crctbl (o : Orientation) (init : U16) (data : List Byte) : Statement (.crctbl o init data) := by
  refine pack_legal .crctbl _ _ _ _ _ _ _ (fun j hj => ?_) (by decide)
  rw [getLsbD_pack _ _ _ _ _ _ _ _ _ hj]
  interval_cases j <;> simp [Op.format, Format.mask, Op.code, BitVec.getLsbD_of_ge]

theorem hacker16 (p init x : U16) (r : Bool) (data : List Byte) : Statement (.hacker16 p init x r data) := by
  refine pack_legal .hacker16 _ _ _ _ _ _ _ (fun j hj => ?_) (by decide)
  rw [getLsbD_pack _ _ _ _ _ _ _ _ _ hj]
  interval_cases j <;> simp [Op.format, Format.mask, Op.code, BitVec.getLsbD_of_ge]

theorem modbus (init : Option U16) (data : List Byte) : Statement (.modbus init data) :=
  preset_legal .modbus init false (by decide)

theorem usb16 (init : Option U16) (data : List Byte) : Statement (.usb16 init data) :=
  preset_legal .usb16 init false (by decide)

theorem ibm (init : Option U16) (alt : Bool) (data : List Byte) : Statement (.ibm init alt data) :=
  preset_legal .ibm init alt (by cases alt <;> decide)

theorem xmodem (init : Option U16) (data : List Byte) : Statement (.xmodem init data) :=
  preset_legal .xmodem init false (by decide)

theorem ccittFalse (init : Option U16) (data : List Byte) : Statement (.ccittFalse init data) :=
  preset_legal .ccittFalse init false (by decide)

theorem kermit (init : Option U16) (data : List Byte) : Statement (.kermit init data) :=
  preset_legal .kermit init false (by decide)

theorem mcrf4xx (init : Option U16) (data : List Byte) : Statement (.mcrf4xx init data) :=
  preset_legal .mcrf4xx init false (by decide)

theorem x25 (init : Option U16) (data : List Byte) : Statement (.x25 init data) :=
  preset_legal .x25 init false (by decide)

theorem sick (init : Option U16) (data : List Byte) : Statement (.sick init data) :=
  preset_legal .sick init false (by decide)

theorem dnp (init : Option U16) (data : List Byte) : Statement (.dnp init data) :=
  preset_legal .dnp init false (by decide)

theorem maxim16 (init : Option U16) (data : List Byte) : Statement (.maxim16 init data) :=
  preset_legal .maxim16 init false (by decide)

theorem dect (init : Option U16) (data : List Byte) : Statement (.dect init data) :=
  preset_legal .dect init false (by decide)

theorem inet (data : List Byte) : Statement (.inet data) := by
  refine pack_legal .inet _ _ _ _ _ _ _ (fun j hj => ?_) (by decide)
  rw [getLsbD_pack _ _ _ _ _ _ _ _ _ hj]
  interval_cases j <;> simp [Op.format, Format.mask, Op.code, BitVec.getLsbD_of_ge]

theorem fletcher16 (data : List Byte) : Statement (.fletcher16 data) := by
  refine pack_legal .fletcher16 _ _ _ _ _ _ _ (fun j hj => ?_) (by decide)
  rw [getLsbD_pack _ _ _ _ _ _ _ _ _ hj]
  interval_cases j <;> simp [Op.format, Format.mask, Op.code, BitVec.getLsbD_of_ge]

end Sys2Proof.Laws.EncodeLegal
end

