-- ==== Sys2Proof/WellFormed.lean ====
section
/-! DEFINITION. When a command can be handed to the unit at all. The types of `Instr` already make every operand
legal (spec/30_encoding.md R99: every 16-bit value is a legal operand); what is left is the length of the buffer,
`0 <= LEN <= MAX_LEN` (spec/20_memory.md R61). The machine itself does not need the check: it runs a buffer of any finite length
(log 7), so no statement has to assume it. -/

namespace Sys2Proof

/-- `LEN <= MAX_LEN` (R6, R61). -/
def Instr.wellFormed (i : Instr) : Bool := decide (i.data.length ≤ Config.maxLen)

end Sys2Proof
end

