-- ==== Sys2Proof/Tests/Slice0.lean ====
section
/-! SUPPORT. The model's own tests: the check of well-formedness, the decoder on words written out from spec/30_encoding.md, one
step per command on the vectors of spec/95_test_vectors.md (and the examples of the operation rules), the five preset tables it
lists, the assembler, and for every statement with hypotheses a witness that meets them. Every expected value is the spec's. -/

namespace Sys2Proof.Tests

set_option Elab.async false

open Sys2Proof Sys2Proof.Machine

/-- The check string `123456789` (spec/00_scope.md R21). -/
def check : List Byte := [0x31, 0x32, 0x33, 0x34, 0x35, 0x36, 0x37, 0x38, 0x39]

/-- The state after reset with a host that has these actions to come. -/
def host (as : List HostAction) : State := { State.reset with pending := as }

/-- Part of a next state. -/
def ofNext {α : Type} (f : State → α) : Host.Outcome State Fault Refusal → Option α
  | .next t => some (f t)
  | .fault _ => none
  | .refused _ => none

/-- `RESULT` and `STATUS` after one `H-ISSUE` on a state. -/
def issue (cw : CmdWord) (data : List Byte) (s : State) : Option (U16 × U16) :=
  ofNext (fun t => (t.result, t.status)) (step { s with pending := [.issue cw data] })

/-- A state whose table buffer is the `LOW` table of `0xA001`, as `TABLE16` leaves it. -/
def withA001 : State := { State.reset with tbl := Memory.full (lowEntry 0xA001#16), status := 0x0011#16 }

/-- A state whose table buffer is the `HIGH` table of `0x1021`, as `TABLE16` leaves it. -/
def with1021 : State := { State.reset with tbl := Memory.full (highEntry 0x1021#16), status := 0x0001#16 }

/-- The state at the end of program P1 (spec/95_test_vectors.md section 3). -/
def afterP1 : State := { withA001 with result := 0x4B37#16 }

/-- A state in which only the two entries are written that the first two bytes of the check string index in the `LOW` table of
`0xA001` from `0xFFFF` (spec/42_table_engine.md R162). -/
def lowPartly : State :=
  { State.reset with tbl := [(0x4C, lowEntry 0xA001#16 0x4C#8), (0xCE, lowEntry 0xA001#16 0xCE#8)] }

/-- The same for the `HIGH` table of `0x1021`. -/
def highPartly : State :=
  { State.reset with tbl := [(0xCE, highEntry 0x1021#16 0xCE#8), (0xF5, highEntry 0x1021#16 0xF5#8)] }

/-! ## WellFormed -/

/-- A buffer of `MAX_LEN` bytes is accepted and one of a byte more is refused (spec/20_memory.md R61). -/
theorem test_wellFormed_length :
    (Instr.inet (List.replicate Config.maxLen 0#8)).wellFormed = true ∧
      (Instr.inet (List.replicate (Config.maxLen + 1) 0#8)).wellFormed = false := by
  simp [Instr.wellFormed, Instr.data]

/-- A command that takes no data is well formed whatever `MAX_LEN` is. -/
theorem test_wellFormed_no_data : (Instr.table16 0xA001#16).wellFormed = true := by
  simp [Instr.wellFormed, Instr.data]

/-! ## Decoding: words written out from spec/30_encoding.md R91 to R100 -/

theorem test_decode_reflect16 :
    decode 0x0000000080050001#64 [] = .ok (.reflect16 0x8005#16) := by decide +kernel

theorem test_decode_table16 :
    decode 0x00000000A0010002#64 [] = .ok (.table16 0xA001#16) := by decide +kernel

theorem test_decode_crctbl :
    decode 0x0000FFFF00000203#64 check = .ok (.crctbl .low 0xFFFF#16 check) := by decide +kernel

theorem test_decode_hacker16 :
    decode 0xABCD123480050104#64 check = .ok (.hacker16 0x8005#16 0x1234#16 0xABCD#16 true check) := by decide +kernel

theorem test_decode_modbus :
    decode 0x0000123400000410#64 check = .ok (.modbus (some 0x1234#16) check) := by decide +kernel

theorem test_decode_usb16 :
    decode 0x0000000000000011#64 check = .ok (.usb16 none check) := by decide +kernel

theorem test_decode_ibm :
    decode 0x0000123400000C12#64 check = .ok (.ibm (some 0x1234#16) true check) := by decide +kernel

theorem test_decode_xmodem :
    decode 0x0000000000000013#64 check = .ok (.xmodem none check) := by decide +kernel

theorem test_decode_ccittFalse :
    decode 0x0000FFFF00000414#64 check = .ok (.ccittFalse (some 0xFFFF#16) check) := by decide +kernel

theorem test_decode_kermit :
    decode 0x0000000000000015#64 check = .ok (.kermit none check) := by decide +kernel

theorem test_decode_mcrf4xx :
    decode 0x0000000000000016#64 check = .ok (.mcrf4xx none check) := by decide +kernel

theorem test_decode_x25 :
    decode 0x00008B1300000417#64 check = .ok (.x25 (some 0x8B13#16) check) := by decide +kernel

theorem test_decode_sick :
    decode 0x0000BEEF00000418#64 check = .ok (.sick (some 0xBEEF#16) check) := by decide +kernel

theorem test_decode_dnp :
    decode 0x0000000000000019#64 check = .ok (.dnp none check) := by decide +kernel

theorem test_decode_maxim16 :
    decode 0x000000000000001A#64 check = .ok (.maxim16 none check) := by decide +kernel

theorem test_decode_dect :
    decode 0x000000000000001B#64 check = .ok (.dect none check) := by decide +kernel

theorem test_decode_inet :
    decode 0x0000000000000020#64 check = .ok (.inet check) := by decide +kernel

theorem test_decode_fletcher16 :
    decode 0x0000000000000021#64 check = .ok (.fletcher16 check) := by decide +kernel

/-- R97: `IO = 0`, so the `INIT` field is ignored. -/
theorem test_decode_ignores_init_of_a_preset_without_override :
    decode 0x0000123400000010#64 check = .ok (.modbus none check) := by decide +kernel

/-- R102, R103, R253 and program P4: the codes and their order. -/
theorem test_decode_errors_in_order :
    decode 0x0000000000000005#64 [] = .error .opcode ∧ decode 0x000000000000F000#64 [0x01] = .error .opcode ∧
      decode 0x0001000010210002#64 [] = .error .field ∧ decode 0x0000000000001001#64 [0x00] = .error .field ∧
      decode 0x0000000010210002#64 [0x00, 0x00] = .error .len := by decide +kernel

/-- R103: a flag or a field the format does not use. -/
theorem test_decode_refuses_unused_bits :
    decode 0x0000000000000120#64 check = .error .field ∧ decode 0x0000000100000021#64 check = .error .field ∧
      decode 0x0000000000000810#64 check = .error .field ∧ decode 0x0000000000000203#64 check ≠ .error .field := by decide +kernel

/-- R108. -/
theorem test_encode_writes_the_words_of_the_spec :
    encode (.crctbl .low 0xFFFF#16 check) = 0x0000FFFF00000203#64 ∧
      encode (.hacker16 0x8005#16 0x0000#16 0xFFFF#16 true []) = 0xFFFF000080050104#64 ∧
      encode (.modbus (some 0x1234#16) []) = 0x0000123400000410#64 ∧ encode (.ibm none true []) = 0x0000000000000812#64 := by decide +kernel

/-- The two entry points of the host of the pipeline. -/
theorem test_host_entry_points :
    decodeTableWord 64 0x00000000A0010002 = some (.table16 0xA001#16) ∧ decodeTableWord 64 0 = none ∧
      ofNext (fun t => (t.result, t.status)) (step (State.reset.withFetchWord 64 0x0000000080050001)) =
        some (0xA001#16, 0x0001#16) := by decide +kernel

/-! ## One step per command (spec/95_test_vectors.md; the examples of the operation rules) -/

/-- Section 2.1. -/
theorem test_reflect16 :
    issue 0x0000000012340001#64 [] State.reset = some (0x2C48#16, 0x0001#16) := by decide +kernel

/-- Section 2.1, a fixed point; `TORIENT` stays. -/
theorem test_reflect16_after_table16 :
    issue 0x0000000001800001#64 [] afterP1 = some (0x0180#16, 0x0011#16) := by decide +kernel

/-- Program P1, step 6. -/
theorem test_crctbl_low :
    issue 0x0000FFFF00000203#64 check withA001 = some (0x4B37#16, 0x0011#16) := by decide +kernel

/-- R285: a mismatch is computed as it stands. -/
theorem test_crctbl_high_on_a_low_table :
    issue 0x0000FFFF00000003#64 check withA001 = some (0xD641#16, 0x0011#16) := by decide +kernel

/-- R171. -/
theorem test_hacker16_default :
    issue 0x0000FFFF10210004#64 check State.reset = some (0x29B1#16, 0x0001#16) := by decide +kernel

/-- R172: not the Modbus value. -/
theorem test_hacker16_reflect :
    issue 0x0000FFFF80050104#64 check State.reset = some (0xCF32#16, 0x0001#16) := by decide +kernel

/-- R190. -/
theorem test_modbus :
    issue 0x0000000000000010#64 check State.reset = some (0x4B37#16, 0x0001#16) := by decide +kernel

/-- R190. -/
theorem test_modbus_override :
    issue 0x0000123400000410#64 check State.reset = some (0xAFDB#16, 0x0001#16) := by decide +kernel

/-- R191. -/
theorem test_usb16 :
    issue 0x0000000000000011#64 check State.reset = some (0xB4C8#16, 0x0001#16) := by decide +kernel

/-- R192. -/
theorem test_ibm :
    issue 0x0000000000000012#64 check State.reset = some (0xBB3D#16, 0x0001#16) := by decide +kernel

/-- R192, U3: the empty buffer needs no `IBM_ALT`. -/
theorem test_ibm_alt_empty :
    issue 0x0000BEEF00000C12#64 [] State.reset = some (0xBEEF#16, 0x0001#16) := by decide +kernel

/-- R193. -/
theorem test_xmodem :
    issue 0x0000000000000013#64 check State.reset = some (0x31C3#16, 0x0001#16) := by decide +kernel

/-- R194. -/
theorem test_ccittFalse :
    issue 0x0000000000000014#64 check State.reset = some (0x29B1#16, 0x0001#16) := by decide +kernel

/-- R195. -/
theorem test_kermit :
    issue 0x0000000000000015#64 check State.reset = some (0x2189#16, 0x0001#16) := by decide +kernel

/-- R196. -/
theorem test_mcrf4xx :
    issue 0x0000000000000016#64 check State.reset = some (0x6F91#16, 0x0001#16) := by decide +kernel

/-- R197. -/
theorem test_x25 :
    issue 0x0000000000000017#64 check State.reset = some (0x906E#16, 0x0001#16) := by decide +kernel

/-- Program P3, step 9. -/
theorem test_x25_chained :
    issue 0x00008B1300000417#64 [0x35, 0x36, 0x37, 0x38, 0x39] with1021 = some (0x906E#16, 0x0001#16) := by decide +kernel

/-- R198: the one defined case. -/
theorem test_sick_empty :
    issue 0x0000BEEF00000418#64 [] afterP1 = some (0xBEEF#16, 0x0011#16) := by decide +kernel

/-- R199. -/
theorem test_dnp :
    issue 0x0000000000000019#64 check State.reset = some (0xEA82#16, 0x0001#16) := by decide +kernel

/-- R199. -/
theorem test_dnp_override :
    issue 0x0000123400000419#64 check State.reset = some (0x3F22#16, 0x0001#16) := by decide +kernel

/-- R200. -/
theorem test_maxim16 :
    issue 0x000000000000001A#64 check State.reset = some (0x44C2#16, 0x0001#16) := by decide +kernel

/-- R201. -/
theorem test_dect :
    issue 0x000000000000001B#64 check State.reset = some (0xCAB0#16, 0x0001#16) := by decide +kernel

/-- R201. -/
theorem test_dect_override :
    issue 0x000012340000041B#64 check State.reset = some (0x9036#16, 0x0001#16) := by decide +kernel

/-- Program P5, step 2. -/
theorem test_inet_odd :
    issue 0x0000000000000020#64 [0x12, 0x34, 0x56] State.reset = some (0x97CB#16, 0x0001#16) := by decide +kernel

/-- R221. -/
theorem test_inet_folds :
    issue 0x0000000000000020#64 [0x00, 0x01, 0xF2, 0x03, 0xF4, 0xF5, 0xF6, 0xF7] State.reset = some (0x220D#16, 0x0001#16) := by decide +kernel

/-- R236. -/
theorem test_fletcher16 :
    issue 0x0000000000000021#64 [0x61, 0x62, 0x63, 0x64, 0x65] State.reset = some (0xC8F0#16, 0x0001#16) := by decide +kernel

/-- R236, R238 (d): the sums of `00 01 00`. -/
theorem test_fletcher16_ff_counts_as_zero :
    issue 0x0000000000000021#64 [0xFF, 0x01, 0xFF] State.reset = some (0x0201#16, 0x0001#16) := by decide +kernel

/-- Program P4, step 1. -/
theorem test_rejected_opcode :
    issue 0x0000000000000005#64 [] afterP1 = some (0x4B37#16, 0x0012#16) := by decide +kernel

/-- Program P4, step 4. -/
theorem test_rejected_field :
    issue 0x0001000010210002#64 [] afterP1 = some (0x4B37#16, 0x0014#16) := by decide +kernel

/-- Program P4, step 5. -/
theorem test_rejected_len :
    issue 0x0000000010210002#64 [0x00, 0x00] afterP1 = some (0x4B37#16, 0x0016#16) := by decide +kernel

/-- Section 2.2; `RESULT` is not written (R141). -/
theorem test_table16_low :
    ofNext (fun t => (t.result, t.status, Memory.read? t.tbl 0, Memory.read? t.tbl 1, Memory.read? t.tbl 128,
        Memory.read? t.tbl 255)) (exec (.table16 0xA001#16) afterP1) =
      some (0x4B37#16, 0x0011#16, some 0x0000#16, some 0xC0C1#16, some 0xA001#16, some 0x4040#16) := by decide +kernel

/-- Section 2.2: bit 15 clear, so `HIGH`, and `TORIENT` goes back to 0. -/
theorem test_table16_high :
    ofNext (fun t => (t.status, Memory.read? t.tbl 1, Memory.read? t.tbl 128, Memory.read? t.tbl 255))
        (exec (.table16 0x3D65#16) afterP1) =
      some (0x0001#16, some 0x3D65#16, some 0x7A6C#16, some 0xAC48#16) := by decide +kernel

/-- Program P6 a, step 2. -/
theorem test_crctbl_empty_reads_no_entry :
    ofNext (fun t => (t.result, t.status, t.runMark)) (step (host [.issue 0x0000BEEF00000203#64 []])) =
      some (0xBEEF#16, 0x0001#16, none) := by decide +kernel

/-- Program P6 a, step 3: the entry is `0xCE`; the unit completes, and `RESULT` is not claimed. -/
theorem test_crctbl_unwritten_marks_the_run :
    ofNext (fun t => (t.status, t.runMark)) (step (host [.issue 0x0000FFFF00000203#64 [0x31]])) =
      some (0x0001#16, some (.unwrittenEntry 0xCE#8)) := by decide +kernel

/-- R162, the second value of two traces: the indexed entries are written, so the result is defined and no mark stands. -/
theorem test_crctbl_partly_written :
    ofNext (fun t => (t.result, t.status, t.runMark)) (exec (.crctbl .low 0xFFFF#16 [0x31, 0x32]) lowPartly) =
        some (0xF595#16, 0x0001#16, none) ∧
      ofNext (fun t => (t.result, t.status, t.runMark)) (exec (.crctbl .high 0xFFFF#16 [0x31, 0x32]) highPartly) =
        some (0x3DBA#16, 0x0001#16, none) := by decide +kernel

/-! ## Host actions -/

/-- Program P1, steps 3, 5 and 7; the register space of R42. -/
theorem test_host_reads :
    ofNext State.returned (step { afterP1 with pending := [.rdRes] }) = some (some 0x4B37#16) ∧
      ofNext State.returned (step { afterP1 with pending := [.rdStat] }) = some (some 0x0011#16) ∧
      ofNext State.returned (step { afterP1 with pending := [.rdTbl 0xFF#8] }) = some (some 0x4040#16) ∧
      ofNext State.returned (step { afterP1 with pending := [.rdReg 0x1FF] }) = some (some 0x4040#16) ∧
      ofNext State.returned (step { afterP1 with pending := [.rdReg 2] }) = some (some 0x0000#16) := by decide +kernel

/-- Program P6 b; writes of register 0 are ignored (R32). -/
theorem test_host_writes_one_entry :
    ofNext (fun t => (t.status, t.tbl)) (step (host [.wrTbl 0x01#8 0x8005#16])) = some (0x0000#16, [(1, 0x8005#16)]) ∧
      ofNext State.tbl (step (host [.wrReg 0x101 0x8005#16])) = some [(1, 0x8005#16)] ∧
      ofNext (fun t => t) (step (host [.wrReg 0 0xFFFF#16])) = some State.reset := by decide +kernel

/-- R280. -/
theorem test_host_reset :
    ofNext (fun t => (t.result, t.status, t.tbl)) (step { afterP1 with pending := [.reset] }) =
      some (0x0000#16, 0x0000#16, []) := by decide +kernel

/-! ## The engines' traces -/

/-- R175: the eight steps of the first byte of the default `HACKER16`. -/
theorem test_bitwise_trace :
    (List.range 9).map (fun n => Nat.iterate (shiftHigh 0x1021#16) n 0xCEFF#16) =
      [0xCEFF#16, 0x8DDF#16, 0x0B9F#16, 0x173E#16, 0x2E7C#16, 0x5CF8#16, 0xB9F0#16, 0x63C1#16, 0xC782#16] := by
  decide +kernel

/-- Section 2.2: the eight steps of `low_entry(0xA001, 0xFF)`. -/
theorem test_low_entry_trace :
    (List.range 9).map (fun n => Nat.iterate (shiftLow 0xA001#16) n 0x00FF#16) =
      [0x00FF#16, 0xA07E#16, 0x503F#16, 0x881E#16, 0x440F#16, 0x8206#16, 0x4103#16, 0x8080#16, 0x4040#16] := by
  decide +kernel

/-! ## The five preset tables (spec/95_test_vectors.md section 5), a row of sixteen entries a line, first entry first -/

/-- The sixteen entries of a row. -/
def entriesOf (row : Nat) : List U16 := (List.range 16).map (fun k => BitVec.ofNat 16 (row >>> (16 * (15 - k))))

/-- The table of a polynomial as a list. -/
def entries (o : Orientation) (p : U16) : List U16 := (List.range 256).map (fun b => tableEntry o p (BitVec.ofNat 8 b))

/-- `PT_A001`. -/
def ptA001 : List Nat :=
  [0x0000C0C1C1810140C30103C00280C241C60106C00780C7410500C5C1C4810440,
   0xCC010CC00D80CD410F00CFC1CE810E400A00CAC1CB810B40C90109C00880C841,
   0xD80118C01980D9411B00DBC1DA811A401E00DEC1DF811F40DD011DC01C80DC41,
   0x1400D4C1D5811540D70117C01680D641D20112C01380D3411100D1C1D0811040,
   0xF00130C03180F1413300F3C1F28132403600F6C1F7813740F50135C03480F441,
   0x3C00FCC1FD813D40FF013FC03E80FE41FA013AC03B80FB413900F9C1F8813840,
   0x2800E8C1E9812940EB012BC02A80EA41EE012EC02F80EF412D00EDC1EC812C40,
   0xE40124C02580E5412700E7C1E68126402200E2C1E3812340E10121C02080E041] ++
  [0xA00160C06180A1416300A3C1A28162406600A6C1A7816740A50165C06480A441,
   0x6C00ACC1AD816D40AF016FC06E80AE41AA016AC06B80AB416900A9C1A8816840,
   0x7800B8C1B9817940BB017BC07A80BA41BE017EC07F80BF417D00BDC1BC817C40,
   0xB40174C07580B5417700B7C1B68176407200B2C1B3817340B10171C07080B041,
   0x500090C191815140930153C052809241960156C057809741550095C194815440,
   0x9C015CC05D809D415F009FC19E815E405A009AC19B815B40990159C058809841,
   0x880148C0498089414B008BC18A814A404E008EC18F814F408D014DC04C808C41,
   0x440084C185814540870147C046808641820142C043808341410081C180814040]

theorem test_table_A001 :
    entries .low 0xA001#16 = ptA001.flatMap entriesOf := by decide +kernel

/-- `PT_1021`. -/
def pt1021 : List Nat :=
  [0x0000102120423063408450A560C670E781089129A14AB16BC18CD1ADE1CEF1EF,
   0x123102103273225252B5429472F762D693398318B37BA35AD3BDC39CF3FFE3DE,
   0x246234430420140164E674C744A45485A56AB54B85289509E5EEF5CFC5ACD58D,
   0x365326721611063076D766F6569546B4B75BA77A97198738F7DFE7FED79DC7BC,
   0x48C458E5688678A70840186128023823C9CCD9EDE98EF9AF89489969A90AB92B,
   0x5AF54AD47AB76A961A710A503A332A12DBFDCBDCFBBFEB9E9B798B58BB3BAB1A,
   0x6CA67C874CE45CC52C223C030C601C41EDAEFD8FCDECDDCDAD2ABD0B8D689D49,
   0x7E976EB65ED54EF43E132E321E510E70FF9FEFBEDFDDCFFCBF1BAF3A9F598F78] ++
  [0x918881A9B1CAA1EBD10CC12DF14EE16F108000A130C220E35004402570466067,
   0x83B99398A3FBB3DAC33DD31CE37FF35E02B1129022F332D24235521462777256,
   0xB5EAA5CB95A88589F56EE54FD52CC50D34E224C314A004817466644754244405,
   0xA7DBB7FA879997B8E75FF77EC71DD73C26D336F2069116B06657767646155634,
   0xD94CC96DF90EE92F99C889E9B98AA9AB584448657806682718C008E1388228A3,
   0xCB7DDB5CEB3FFB1E8BF99BD8ABBBBB9A4A755A546A377A160AF11AD02AB33A92,
   0xFD2EED0FDD6CCD4DBDAAAD8B9DE88DC97C266C075C644C453CA22C831CE00CC1,
   0xEF1FFF3ECF5DDF7CAF9BBFBA8FD99FF86E177E364E555E742E933EB20ED11EF0]

theorem test_table_1021 :
    entries .high 0x1021#16 = pt1021.flatMap entriesOf := by decide +kernel

/-- `PT_8408`. -/
def pt8408 : List Nat :=
  [0x000011892312329B462457AD653674BF8C489DC1AF5ABED3CA6CDBE5E97EF8F7,
   0x108101083393221A56A5472C75B7643E9CC98D40BFDBAE52DAEDCB64F9FFE876,
   0x2102308B02101399672676AF443455BDAD4ABCC38E589FD1EB6EFAE7C87CD9F5,
   0x3183200A1291031877A7662E54B5453CBDCBAC429ED98F50FBEFEA66D8FDC974,
   0x4204538D6116709F042015A9273236BBCE4CDFC5ED5EFCD7886899E1AB7ABAF3,
   0x5285430C7197601E14A1052837B3263ADECDCF44FDDFEC5698E98960BBFBAA72,
   0x6306728F4014519D252234AB063017B9EF4EFEC7CC5CDDD5A96AB8E38A789BF1,
   0x7387620E5095411C35A3242A16B10738FFCFEE46DCDDCD54B9EBA8629AF98B70] ++
  [0x84089581A71AB693C22CD3A5E13EF0B7084019C92B523ADB4E645FED6D767CFF,
   0x94898500B79BA612D2ADC324F1BFE03618C109483BD32A5A5EE54F6C7DF76C7E,
   0xA50AB48386189791E32EF2A7C03CD1B5294238CB0A501BD96F667EEF4C745DFD,
   0xB58BA40296998710F3AFE226D0BDC13439C3284A1AD10B587FE76E6E5CF54D7C,
   0xC60CD785E51EF497802891A1A33AB2B34A445BCD695678DF0C601DE92F723EFB,
   0xD68DC704F59FE41690A98120B3BBA2325AC54B4C79D7685E1CE10D683FF32E7A,
   0xE70EF687C41CD595A12AB0A3823893B16B467ACF485459DD2D623CEB0E701FF9,
   0xF78FE606D49DC514B1ABA02292B983307BC76A4E58D5495C3DE32C6A1EF10F78]

theorem test_table_8408 :
    entries .low 0x8408#16 = pt8408.flatMap entriesOf := by decide +kernel

/-- `PT_A6BC`. -/
def ptA6BC : List Nat :=
  [0x0000365E6CBC5AE2D978EF26B5C4839AFF89C9D79335A56B26F110AF4A4D7C13,
   0xB26B8435DED7E8896B135D4D07AF31F14DE27BBC215E1700949AA2C4F826CE78,
   0x29AF1FF14513734DF0D7C6899C6BAA35D626E078BA9A8CC40F5E390063E255BC,
   0x9BC4AD9AF778C12642BC74E22E00185E644D521308F13EAFBD358B6BD189E7D7,
   0x535E65003FE209BC8A26BC78E69AD0C4ACD79A89C06BF63575AF43F119132F4D,
   0xE135D76B8D89BBD7384D0E1354F162AF1EBC28E27200445EC7C4F19AAB789D26,
   0x7AF14CAF164D2013A38995D7CF35F96B8578B326E9C4DF9A5C006A5E30BC06E2,
   0xC89AFEC4A426927811E227BC7D5E4B003713014D5BAF6DF1EE6BD83582D7B489] ++
  [0xA6BC90E2CA00FC5E7FC4499A1378252659356F6B358903D7804DB613ECF1DAAF,
   0x14D72289786B4E35CDAFFBF1A113974DEB5EDD0087E2B1BC322604785E9A68C4,
   0x8F13B94DE3AFD5F1566B60353AD70C89709A46C41C262A78A9E29FBCC55EF300,
   0x3D780B2651C4679AE400D25E88BCBEE2C2F1F4AFAE4D98131B892DD77735416B,
   0xF5E2C3BC995EAF002C9A1AC4402676780A6B3C3566D75089D313E54DBFAF89F1,
   0x478971D72B351D6B9EF1A8AFF24DC413B8008E5ED4BCE2E2617857260DC43B9A,
   0xDC4DEA13B0F186AF0535336B69895FD723C4159A4F787926FABCCCE29600A05E,
   0x6E265878029A34C4B75E8100DBE2EDBC91AFA7F1FD13CB4D48D77E89246B1235]

theorem test_table_A6BC :
    entries .low 0xA6BC#16 = ptA6BC.flatMap entriesOf := by decide +kernel

/-- `PT_91A0`. -/
def pt91A0 : List Nat :=
  [0x000049F393E6DA15048D4D7E976BDE98091A40E99AFCD30F0D9744649E71D782,
   0x12345BC781D2C82116B95F4A855FCCAC1B2E52DD88C8C13B1FA356508C45C5B6,
   0x24686D9BB78EFE7D20E56916B303FAF02D726481BE94F76729FF600CBA19F3EA,
   0x365C7FAFA5BAEC4932D17B22A137E8C43F4676B5ACA0E5533BCB7238A82DE1DE,
   0x48D00123DB3692C54C5D05AEDFBB964841CA0839D22C9BDF45470CB4D6A19F52,
   0x5AE41317C90280F15E69179ACD8F847C53FE1A0DC01889EB57731E80C4958D66,
   0x6CB8254BFF5EB6AD683521C6FBD3B22065A22C51F644BFB7612F28DCF2C9BB3A,
   0x7E8C377FED6AA4997A0133F2E9E7A01477963E65E470AD83731B3AE8E0FDA90E] ++
  [0x91A0D85302464BB5952DDCDE06CB4F3898BAD1490B5C42AF9C37D5C40FD14622,
   0x8394CA67107259818719CEEA14FF5D0C8A8EC37D1968509B8E03C7F01DE55416,
   0xB5C8FC3B262E6FDDB145F8B622A36B50BCD2F5212F3466C7B85FF1AC2BB9624A,
   0xA7FCEE0F341A7DE9A371EA8230977964AEE6E7153D0074F3AA6BE398398D707E,
   0xD97090834A960365DDFD940E4E1B07E8D06A9999438C0A7FD4E79D1447010EF2,
   0xCB4482B758A21151CFC9863A5C2F15DCC25E8BAD51B8184BC6D38F2055351CC6,
   0xFD18B4EB6EFE270DF995B0666A732380F402BDF167E42E17F08FB97C63692A9A,
   0xEF2CA6DF7CCA3539EBA1A252784731B4E636AFC575D03C23E2BBAB48715D38AE]

theorem test_table_91A0 :
    entries .low 0x91A0#16 = pt91A0.flatMap entriesOf := by decide +kernel

/-! ## The assembler (spec/30_encoding.md R105 to R108) -/

theorem test_assemble_crctbl :
    assemble "CRCTBL or=LOW, init=0xFFFF ; \"123456789\"".toList = some (0x0000FFFF00000203#64, check) := by decide +kernel

theorem test_assemble_hacker16 :
    assemble "HACKER16 reflect=true, xorout=0xFFFF, init=0, poly=32773".toList = some (0xFFFF000080050104#64, []) := by decide +kernel

theorem test_assemble_udp :
    assemble "UDP ; 12 34 56 00 97 CB".toList = some (0x0000000000000020#64, [0x12, 0x34, 0x56, 0x00, 0x97, 0xCB]) := by decide +kernel

theorem test_assemble_ibm_alt :
    assemble "IBM alt=0x1".toList = some (0x0000000000000812#64, []) := by decide +kernel

theorem test_assemble_required :
    assemble "TABLE16".toList = none := by decide +kernel

/-! ## Witnesses: for each statement with hypotheses, inputs that meet them all -/

/-- HostResetClearsTheUnit, HostActionsDoWhatTheirTableSays: a list that begins with each action, and a written and an unwritten
entry at both ends of the buffer. -/
theorem test_witness_host_actions :
    (host [.reset]).pending = .reset :: [] ∧
      (host [.issue 0x10#64 check]).pending = .issue 0x10#64 check :: [] ∧ decode 0x10#64 check = .ok (.modbus none check) ∧
      (host [.issue 0x05#64 []]).pending = .issue 0x05#64 [] :: [] ∧ decode 0x05#64 [] = .error .opcode ∧
      (host [.rdRes]).pending = .rdRes :: [] ∧ (host [.rdStat]).pending = .rdStat :: [] ∧
      (host [.rdTbl 0xFF#8]).pending = .rdTbl 0xFF#8 :: [] ∧ Memory.read? (host [.rdTbl 0xFF#8]).tbl 255 = none ∧
      Memory.read? afterP1.tbl 0 = some 0x0000#16 ∧ Memory.read? afterP1.tbl 255 = some 0x4040#16 ∧
      (host [.wrTbl 0x00#8 0x1234#16, .rdRes]).pending = .wrTbl 0x00#8 0x1234#16 :: [.rdRes] := by
  decide +kernel

/-- RegisterNumbersNameTheirRegisters: a read and a write at each end of every range of R42, and what each is. -/
theorem test_witness_register_numbers :
    [0, 1, 2, 3, 0xFF, 0x100, 0x1FF, 0x200].map regOf =
        [.result, .status, .commandPort, .reserved, .reserved, .tbl 0x00#8, .tbl 0xFF#8, .reserved] ∧
      [0, 1, 2, 0xFF, 0x100, 0x1FF, 0x200].map (fun n => ((host [.rdReg n]).pending, (host [.wrReg n 0#16]).pending)) =
        [0, 1, 2, 0xFF, 0x100, 0x1FF, 0x200].map (fun n => ([HostAction.rdReg n], [HostAction.wrReg n 0#16])) ∧
      (0x100 : Nat) = 0x100 + (0x00#8).toNat ∧ (0x1FF : Nat) = 0x100 + (0xFF#8).toNat := by
  decide +kernel

/-- StepRunsTheDecodedCommand, IssueReportsItsOwnOutcome: an accepted word to come, and a second `STATUS` that differs in `DONE` and
`ERR` only. -/
theorem test_witness_issue_accepted :
    (host [.issue 0x0000FFFF00000203#64 check]).pending = .issue 0x0000FFFF00000203#64 check :: [] ∧
      decode 0x0000FFFF00000203#64 check = .ok (.crctbl .low 0xFFFF#16 check) ∧
      (0x0004#16 : U16) &&& 0xFFF0#16 = (host [.issue 0x0000FFFF00000203#64 check]).status &&& 0xFFF0#16 := by
  decide +kernel

/-- RejectionWritesOnlyDoneAndErr, IssueReportsItsOwnOutcome: a word to come for each error. -/
theorem test_witness_issue_rejected :
    [(0x05#64, []), (0x1002#64, []), (0x02#64, [0x00#8])].map
        (fun c => ((host [.issue c.1 c.2]).pending, decode c.1 c.2)) =
      [([.issue 0x05#64 []], .error .opcode), ([.issue 0x1002#64 []], .error .field),
       ([.issue 0x02#64 [0x00#8]], .error .len)] := by
  decide +kernel

/-- IdleUnitStaysAsItIs: a host with nothing to come. -/
theorem test_witness_idle : State.reset.pending = [] := rfl

/-- DecoderFollowsTheOpcodeMap: a word that no row has, and on the row of `REFLECT16` a word for each of its three outcomes. -/
theorem test_witness_opcode_map :
    (∀ r ∈ Spec.rows, (0xFF#64 : CmdWord).extractLsb' 0 8 ≠ r.op) ∧
      ∃ r ∈ Spec.rows, r.op = 0x01#8 ∧ r.noData = true ∧
        ((0x1001#64 : CmdWord).extractLsb' 0 8 = r.op ∧ (0x1001#64 : CmdWord) &&& r.mask ≠ r.matchWord) ∧
        ((0xFFFF0001#64 : CmdWord).extractLsb' 0 8 = r.op ∧ (0xFFFF0001#64 : CmdWord) &&& r.mask = r.matchWord) ∧
        ([0x00#8] : List Byte) ≠ [] := by
  refine ⟨?_, _, List.mem_cons_self, rfl, rfl, by decide +kernel, by decide +kernel, by decide⟩
  have h : ∀ c ∈ Spec.rows.map Spec.Row.op, (0xFF#64 : CmdWord).extractLsb' 0 8 ≠ c := by decide +kernel
  exact fun r hr => h r.op (List.mem_map_of_mem hr)

/-- AcceptedWordIsItsEncodingButForIgnoredInit: a word of each kind, the first and the last preset opcode among them. -/
theorem test_witness_accepted_words :
    decode 0xABCD000010210004#64 [] = .ok (.hacker16 0x1021#16 0x0000#16 0xABCD#16 false []) ∧
      decode 0x0000123400000010#64 [] = .ok (.modbus none []) ∧
      decode 0x0000FFFF0000001B#64 [] = .ok (.dect none []) ∧
      decode 0x000012340000041B#64 [] = .ok (.dect (some 0x1234#16) []) := by
  decide +kernel

/-- AssemblerOperandsComeInAnyOrder: two orders of one list. -/
theorem test_witness_operand_order :
    ([(.or, 1), (.init, 0xFFFF)] : AsmOperands).Perm [(.init, 0xFFFF), (.or, 1)] := List.Perm.swap ..

/-- Reflect16Laws, OneByteCrcReadsTheTableEntry, Table16EqualsItsSingleWrites, BitwiseEngineLaws, PresetsChainWhenTheXoroutIsUndone,
CommandsChangeOnlyTheirRow: `exec` answers a next state, for each of the three shapes of command, from a legal buffer. -/
theorem test_witness_exec_next :
    Memory.wf State.reset.tbl = true ∧ (∃ t, exec (.reflect16 0x8005#16) State.reset = .next t) ∧
      (∃ t, exec (.table16 0xA001#16) State.reset = .next t) ∧
      (∃ t, exec (.crctbl .low 0xFFFF#16 check) withA001 = .next t) ∧
      (∃ t, exec (.hacker16 0x8005#16 0xFFFF#16 0xFFFF#16 true check) State.reset = .next t) ∧
      ∀ pr ∈ Spec.presets, ∃ t, exec (pr.cmd none check) State.reset = .next t := by
  refine ⟨rfl, ⟨_, rfl⟩, ⟨_, rfl⟩, ⟨_, rfl⟩, ⟨_, rfl⟩, fun pr hpr => ?_⟩
  simp only [Spec.presets, List.mem_cons, List.mem_nil_iff, or_false] at hpr
  rcases hpr with rfl | rfl | rfl | rfl | rfl | rfl | rfl | rfl | rfl | rfl | rfl <;> exact ⟨_, rfl⟩

/-- TableEntriesAreEightSteps and BitwiseEngineIsItsLoop: a register that takes the eight steps, in either direction and from any
start. -/
theorem test_witness_eight_steps (p x : U16) :
    (∃ w : Nat → U16, w 0 = x ∧ Spec.EightHigh p w) ∧ ∃ w : Nat → U16, w 0 = x ∧ Spec.EightLow p w :=
  ⟨⟨fun n => Nat.iterate (shiftHigh p) n x, rfl, fun k _ => Function.iterate_succ_apply' (shiftHigh p) k x⟩,
    fun n => Nat.iterate (shiftLow p) n x, rfl, fun k _ => Function.iterate_succ_apply' (shiftLow p) k x⟩

/-- CrctblRunsTheEngineOverTbl, WrittenTableIsSafeUntilReset: states whose buffer is written, two of them with the same entries, and a
step from one. -/
theorem test_witness_written :
    withA001.tblWritten ∧ afterP1.tblWritten ∧
      (∀ b : Byte, Memory.read? withA001.tbl b.toNat = Memory.read? afterP1.tbl b.toNat) ∧ withA001 ≠ afterP1 ∧
      withA001.pending.head? ≠ some .reset ∧ ∃ t, step withA001 = .next t := by
  refine ⟨fun b => by simp [withA001], fun b => by simp [afterP1, withA001], fun b => rfl, fun h => ?_, by decide, _, rfl⟩
  have := congrArg State.result h
  revert this
  decide

/-- CrctblCompletesOnAnyTable: empty data, and data that finds written entries only, which leaves no mark. -/
theorem test_witness_crctbl_any_table :
    (exec (.crctbl .low 0xFFFF#16 []) State.reset = .next { State.reset with result := 0xFFFF#16, status := 0x0001#16 }) ∧
      ofNext State.runMark (exec (.crctbl .low 0xFFFF#16 check) withA001) = some none := by
  exact ⟨rfl, by decide +kernel⟩

/-- CrctblRunsTheEngineOverTbl, CrctblChains, ResultDependsOnCommandAndTableOnly: two bytes whose indexes (`0xCE`, then `0x4C` in
`LOW`; `0xCE`, then `0xF5` in `HIGH`) are the only entries written; and another state with those entries, one more and another
`RESULT`. -/
theorem test_witness_indexed_written :
    Spec.indexes lowPartly.tbl .low [0x31, 0x32] 0xFFFF#16 = [0xCE#8, 0x4C#8] ∧
      Spec.IndexedWritten lowPartly.tbl .low ([0x31] ++ [0x32]) 0xFFFF#16 ∧ ¬ lowPartly.tblWritten ∧
      Spec.indexes highPartly.tbl .high [0x31, 0x32] 0xFFFF#16 = [0xCE#8, 0xF5#8] ∧
      Spec.IndexedWritten highPartly.tbl .high ([0x31] ++ [0x32]) 0xFFFF#16 ∧
      (∀ j ∈ Spec.indexes lowPartly.tbl .low [0x31, 0x32] 0xFFFF#16,
        Memory.read? ({ lowPartly with tbl := Memory.write lowPartly.tbl 0 0x1234#16, result := 0x0001#16 } : State).tbl
          j.toNat = Memory.read? lowPartly.tbl j.toNat) := by
  have hl : Spec.indexes lowPartly.tbl .low [0x31, 0x32] 0xFFFF#16 = [0xCE#8, 0x4C#8] := by decide +kernel
  have hh : Spec.indexes highPartly.tbl .high [0x31, 0x32] 0xFFFF#16 = [0xCE#8, 0xF5#8] := by decide +kernel
  refine ⟨hl, ?_, fun h => absurd (h 0#8) (by decide), hh, ?_, ?_⟩
  · rw [Spec.IndexedWritten, List.singleton_append, hl]
    decide +kernel
  · rw [Spec.IndexedWritten, List.singleton_append, hh]
    decide +kernel
  · rw [hl]
    decide +kernel

/-- UnwrittenEntryMarksTheRun: the first byte, after reset, where both indexes are unwritten; and, in either orientation, a second
byte whose index is unwritten behind a first whose entry is written. -/
theorem test_witness_unwritten :
    (∃ u, exec (.crctbl .low 0xFFFF#16 []) State.reset = .next u ∧ u.runMark = none ∧
      Memory.read? State.reset.tbl (((u.result ^^^ (0x31#8).setWidth 16) &&& 0x00FF#16).toNat) = none) ∧
    (∃ u, exec (.crctbl .high 0xFFFF#16 []) State.reset = .next u ∧ u.runMark = none ∧
      Memory.read? State.reset.tbl ((((u.result >>> 8) ^^^ (0x31#8).setWidth 16) &&& 0x00FF#16).toNat) = none) ∧
    (∃ u, exec (.crctbl .low 0xFFFF#16 [0x31]) lowPartly = .next u ∧ u.runMark = none ∧
      Memory.read? lowPartly.tbl (((u.result ^^^ (0x33#8).setWidth 16) &&& 0x00FF#16).toNat) = none) ∧
    ∃ u, exec (.crctbl .high 0xFFFF#16 [0x31]) highPartly = .next u ∧ u.runMark = none ∧
      Memory.read? highPartly.tbl ((((u.result >>> 8) ^^^ (0x33#8).setWidth 16) &&& 0x00FF#16).toNat) = none :=
  ⟨⟨_, rfl, rfl, rfl⟩, ⟨_, rfl, rfl, rfl⟩, ⟨_, rfl, by decide +kernel, by decide +kernel⟩,
    _, rfl, by decide +kernel, by decide +kernel⟩

/-- TableEngineEqualsBitSerialEngine: a table of either shape. -/
theorem test_witness_tables (p : U16) :
    (∃ t : Byte → U16, ∀ b, t b = highEntry p b) ∧ ∃ t : Byte → U16, ∀ b, t b = lowEntry p b :=
  ⟨⟨highEntry p, fun _ => rfl⟩, lowEntry p, fun _ => rfl⟩

/-- BitwiseEngineLaws (d): two different initial values and bytes with the same combination. -/
theorem test_witness_same_first_word :
    (0x3100#16 : U16) ^^^ ((0x00#8).setWidth 16 <<< 8) = 0x0000#16 ^^^ ((0x31#8).setWidth 16 <<< 8) := by decide

/-- PresetsComputeTheirCatalogRow, TableGeneratorReproducesThePresets: the catalog is not empty, and has rows of both
orientations. -/
theorem test_witness_catalog :
    (∃ pr ∈ Spec.presets, pr.orient = .low) ∧ ∃ pr ∈ Spec.presets, pr.orient = .high :=
  ⟨⟨_, List.mem_cons_self, rfl⟩, ⟨.xmodem, 0x1021#16, 0x1021#16, .high, 0x0000#16, 0x0000#16⟩, by simp [Spec.presets], rfl⟩

/-- Fold16IsItsLoopAndItsClosedForm: each clause at its boundary, with the value R18 gives. -/
theorem test_witness_fold16 :
    (fold16 65535).toNat = 65535 ∧ (fold16 65536).toNat = 1 ∧ (fold16 0).toNat = 0 ∧ (fold16 1).toNat = 1 ∧
      (fold16 0x2DDF0).toNat = 0xDDF2 := by
  decide +kernel

/-- InternetChecksumLaws: two orders of the same words, and a buffer of even length (program P5, steps 3 and 4). -/
theorem test_witness_words :
    (Spec.words [0x12, 0x34, 0x56, 0x00]).Perm (Spec.words [0x56, 0x00, 0x12, 0x34]) ∧
      ([0x12, 0x34, 0x56, 0x00] : List Byte).length % 2 = 0 := ⟨List.Perm.swap .., rfl⟩

/-- FletcherLaws (c): two orders of the same bytes. -/
theorem test_witness_bytes : ([0x01, 0x02] : List Byte).Perm [0x02, 0x01] := List.Perm.swap ..

/-- SeventeenCommandsNeedNoTable: a command that is no `CRCTBL`, and a `CRCTBL` without data. -/
theorem test_witness_seventeen :
    (∀ o init b rest, Instr.modbus none check ≠ .crctbl o init (b :: rest)) ∧
      ∀ o init b rest, Instr.crctbl .low 0xFFFF#16 [] ≠ .crctbl o init (b :: rest) := by
  simp

/-- OnlyTheseEventsChangeTheUnit: a step that changes `RESULT`, one that changes `TORIENT`, and one that changes each end of `TBL` by
each way of writing it. -/
theorem test_witness_events :
    ofNext (fun t => decide (t.result ≠ 0x4B37#16)) (step { afterP1 with pending := [.issue 0x20#64 []] }) = some true ∧
      ofNext (fun t => Status.torient t.status) (step (host [.issue 0xA0010002#64 []])) = some true ∧
      ofNext (fun t => Memory.read? t.tbl 0) (step (host [.wrTbl 0x00#8 0x1234#16])) = some (some 0x1234#16) ∧
      ofNext (fun t => Memory.read? t.tbl 255) (step (host [.wrReg 0x1FF 0x1234#16])) = some (some 0x1234#16) := by
  decide +kernel

/-- EveryStepKeepsTheInvariant: a state with the invariant, from which a step goes on. -/
theorem test_witness_invariant : afterP1.Inv ∧ ∃ t, step afterP1 = .next t := by
  refine ⟨⟨wf_full _, by decide, fun h => ?_⟩, _, rfl⟩
  revert h
  decide


end Sys2Proof.Tests
end

section
/-! PROOFS. `fold16` (spec/00_scope.md R18): its loop reaches the closed form, and the facts about it follow from that form. -/

namespace Sys2Proof.Machine

theorem foldRound_pos {n : Nat} (h : 65536 ≤ n) : 0 < n % 65536 + n / 65536 := by omega

theorem foldRound_lt {n : Nat} (h : 65536 ≤ n) : n % 65536 + n / 65536 < n := by omega

/-- 65536 is 1 modulo 65535, so a round keeps the closed form. -/
theorem foldRound_closedForm {n : Nat} (h : 65536 ≤ n) :
    (n % 65536 + n / 65536 - 1) % 65535 = (n - 1) % 65535 := by omega

/-- R18's closed form, for every fuel that is enough. -/
theorem foldRounds_of_pos {fuel n : Nat} (hpos : 0 < n) (hfuel : n ≤ fuel) :
    foldRounds fuel n = (n - 1) % 65535 + 1 := by
  induction fuel generalizing n with
  | zero => omega
  | succ fuel ih =>
    rw [foldRounds]
    split
    case isTrue hlt => omega
    case isFalse hge =>
      have h : 65536 ≤ n := Nat.not_lt.mp hge
      have hless := foldRound_lt h
      rw [ih (foldRound_pos h) (by omega), foldRound_closedForm h]

@[simp] theorem fold16_toNat_zero : (fold16 0).toNat = 0 := rfl

theorem fold16_toNat_of_pos {n : Nat} (hpos : 0 < n) : (fold16 n).toNat = (n - 1) % 65535 + 1 := by
  rw [fold16, foldRounds_of_pos hpos le_rfl, BitVec.toNat_ofNat]
  omega

theorem fold16_toNat_of_lt {n : Nat} (hlt : n < 65536) : (fold16 n).toNat = n := by
  rcases Nat.eq_zero_or_pos n with rfl | hpos
  · exact fold16_toNat_zero
  · rw [fold16_toNat_of_pos hpos]
    omega

/-- One round does not change the result: both numbers have the same closed form. -/
theorem fold16_eq_fold16_round {n : Nat} (h : 65536 ≤ n) : fold16 n = fold16 (n % 65536 + n / 65536) := by
  apply BitVec.eq_of_toNat_eq
  rw [fold16_toNat_of_pos (by omega), fold16_toNat_of_pos (foldRound_pos h), foldRound_closedForm h]

theorem fold16_toNat_mod (n : Nat) : (fold16 n).toNat % 65535 = n % 65535 := by
  rcases Nat.eq_zero_or_pos n with rfl | hpos
  · rw [fold16_toNat_zero]
  · rw [fold16_toNat_of_pos hpos]
    omega

end Sys2Proof.Machine

namespace Sys2Proof.Proofs

open Sys2Proof Sys2Proof.Machine

/-- Settles O46: each clause is one of the facts about `fold16` above. -/
theorem fold16IsItsLoopAndItsClosedForm : Obligations.Fold16IsItsLoopAndItsClosedForm :=
  fun n => ⟨fold16_toNat_of_lt, fun h => ⟨fold16_eq_fold16_round h, foldRound_lt h⟩, fold16_toNat_zero,
    fun hpos => ⟨fold16_toNat_of_pos hpos, fold16_toNat_mod n⟩⟩

end Sys2Proof.Proofs
end

section
/-! PROOFS. What a command and a step do to `RESULT`, `STATUS` and `TBL`, said once for the statements about the unit's state
(spec/10_state.md R32 to R42). -/

namespace Sys2Proof.Machine

/-! The fields of `STATUS` as the statements write them. -/

/-- `STATUS` after a successful command (R34), as the model writes it and as the statements do. -/
theorem withOutcome_done_eq (st : U16) : Status.withOutcome st true 0#3 = Spec.done st := by
  simp [Status.withOutcome, Spec.done]

/-- Writing `TORIENT` first leaves bits 15:5 of the old word and the new `TORIENT` under the outcome. -/
theorem withTorient_and_mask (st : U16) (o : Orientation) :
    Status.withTorient st o &&& 0xFFF0#16 = (st &&& 0xFFE0#16) ||| ((BitVec.ofBool o.bit).setWidth 16 <<< 4) := by
  have hbit : ((BitVec.ofBool o.bit).setWidth 16 <<< 4) &&& 0xFFF0#16 = (BitVec.ofBool o.bit).setWidth 16 <<< 4 := by
    cases o <;> rfl
  rw [Status.withTorient, BitVec.and_or_distrib_right, hbit, BitVec.and_assoc]
  rfl

@[simp] theorem orientOf_bit (p : U16) : (orientOf p).bit = p.getLsbD 15 := by
  rw [orientOf]
  cases p.getLsbD 15 <;> rfl

/-- `STATUS` after `TABLE16` (R141), as the model writes it and as the statements do. -/
theorem withOutcome_withTorient_eq (st p : U16) :
    Status.withOutcome (Status.withTorient st (orientOf p)) true 0#3 = Spec.doneTable st p := by
  rw [Status.withOutcome, withTorient_and_mask, orientOf_bit, BitVec.or_assoc, BitVec.or_assoc, Spec.doneTable]
  cases p.getLsbD 15 <;> rfl

@[simp] theorem errCode_setWidth (e : CmdError) : (errCode e).setWidth 16 = Spec.code e := by
  cases e <;> rfl

theorem errCode_ne_zero (e : CmdError) : errCode e ≠ 0#3 := by
  cases e <;> decide

theorem errCode_le (e : CmdError) : (errCode e).toNat ≤ 3 := by
  cases e <;> decide

/-! Commands. -/

/-- A command completes in a next state. -/
theorem exec_next (i : Instr) (s : State) : ∃ t, exec i s = .next t := by
  obtain ⟨_, -, h⟩ | ⟨_, _, _, -, h⟩ | ⟨_, -, -, h⟩ := exec_cases i s
  · exact ⟨_, h⟩
  · exact ⟨_, h⟩
  · exact ⟨_, h s⟩

theorem exec_crctbl (o : Orientation) (init : U16) (data : List Byte) (s : State) :
    exec (.crctbl o init data) s = finish (crcTbl o data init s).1 (crcTbl o data init s).2 := rfl

/-- The columns of R41 for the registers: `TABLE16` keeps `RESULT` and writes the others; any other command keeps `TBL` and
writes nothing of `STATUS` but `DONE` and `ERR`. -/
theorem exec_registers {i : Instr} {s t : State} (h : exec i s = .next t) :
    (∃ p, i = .table16 p ∧ t.result = s.result ∧
      t.status = Status.withOutcome (Status.withTorient s.status (orientOf p)) true 0#3 ∧
      t.tbl = Memory.full (tableEntry (orientOf p) p)) ∨
    ((∀ p, i ≠ .table16 p) ∧ t.status = Status.withOutcome s.status true 0#3 ∧ t.tbl = s.tbl) := by
  obtain ⟨p, rfl, h'⟩ | ⟨o, init, data, rfl, h'⟩ | ⟨v, hi, -, h'⟩ := exec_cases i s
  · cases h.symm.trans h'
    exact .inl ⟨p, rfl, rfl, rfl, rfl⟩
  · cases h.symm.trans h'
    exact .inr ⟨by simp, rfl, rfl⟩
  · cases h.symm.trans (h' s)
    exact .inr ⟨hi, rfl, rfl⟩

/-! The register space (R42). -/

@[simp] theorem regOf_tbl (i : Byte) : regOf (0x100 + i.toNat) = .tbl i := by
  have hi := i.isLt
  rw [regOf, if_neg (by omega), if_neg (by omega), if_neg (by omega), if_pos (by omega), Nat.add_sub_cancel_left,
    BitVec.ofNat_toNat, BitVec.setWidth_eq]

/-- A number that names an entry of `TBL` is that entry's. -/
theorem eq_of_regOf_eq_tbl {n : Nat} {i : Byte} (h : regOf n = .tbl i) : n = 0x100 + i.toNat := by
  unfold regOf at h
  split_ifs at h with h0 h1 h2 hrange
  injection h with h
  rw [← h, BitVec.toNat_ofNat]
  omega

/-- What stands outside `TBL` and is no register named by itself is reserved. -/
theorem regOf_reserved {n : Nat} (h0 : n ≠ 0) (h1 : n ≠ 1) (h2 : n ≠ 2) (hout : n < 0x100 ∨ 0x1FF < n) :
    regOf n = .reserved := by
  rw [regOf, if_neg h0, if_neg h1, if_neg h2, if_neg (by omega)]

theorem hRdReg_tbl (i : Byte) (s : State) : hRdReg (0x100 + i.toNat) s = hRdTbl i s := by
  rw [hRdReg, regOf_tbl]

/-- The command port and the reserved numbers read zero. -/
theorem hRdReg_zero {n : Nat} (h0 : n ≠ 0) (h1 : n ≠ 1) (hout : n < 0x100 ∨ 0x1FF < n) (s : State) :
    hRdReg n s = hReturn 0x0000#16 s := by
  by_cases h2 : n = 2
  · subst h2
    rfl
  · rw [hRdReg, regOf_reserved h0 h1 h2 hout]

theorem hWrReg_tbl (i : Byte) (v : U16) (s : State) : hWrReg (0x100 + i.toNat) v s = .next (writeTbl i v s) := by
  rw [hWrReg, regOf_tbl]

/-- A write of `RESULT`, `STATUS` or a reserved number is ignored. -/
theorem hWrReg_ignored {n : Nat} (h2 : n ≠ 2) (hout : n < 0x100 ∨ 0x1FF < n) (v : U16) (s : State) :
    hWrReg n v s = .next s := by
  by_cases h0 : n = 0
  · subst h0
    rfl
  by_cases h1 : n = 1
  · subst h1
    rfl
  · rw [hWrReg, regOf_reserved h0 h1 h2 hout]

/-! Host actions and steps. -/

/-- Nothing of the unit changed: `RESULT`, `STATUS` and `TBL` are as they were. -/
structure SameUnit (s t : State) : Prop where
  result : t.result = s.result
  status : t.status = s.status
  tbl : t.tbl = s.tbl

theorem hReturn_sameUnit (v : U16) (s : State) : SameUnit s (hReturn v s) := ⟨rfl, rfl, rfl⟩

/-- A read of an entry, written or not, changes nothing of the unit (R36). -/
theorem hRdTbl_sameUnit (i : Byte) (s : State) : SameUnit s (hRdTbl i s) := by
  rw [hRdTbl, readTbl_frame]
  exact ⟨rfl, rfl, rfl⟩

/-- Nor does a read by register number (R42). -/
theorem hRdReg_sameUnit (n : Nat) (s : State) : SameUnit s (hRdReg n s) := by
  unfold hRdReg
  split
  case h_4 i _ => exact hRdTbl_sameUnit i s
  all_goals exact hReturn_sameUnit _ s

/-- A write by register number that goes on wrote an entry of `TBL`, or was ignored (R42). -/
theorem hWrReg_cases {n : Nat} {v : U16} {s t : State} (h : hWrReg n v s = .next t) :
    t = s ∨ ∃ i : Byte, n = 0x100 + i.toNat ∧ t = writeTbl i v s := by
  unfold hWrReg at h
  split at h
  case h_3 => cases h
  case h_4 i hi =>
    cases h
    exact .inr ⟨i, eq_of_regOf_eq_tbl hi, rfl⟩
  all_goals
    cases h
    exact .inl rfl

/-- A step with an action to come is that action, with the action taken off the list. -/
theorem step_of_pending {s : State} {a : HostAction} {rest : List HostAction} (h : s.pending = a :: rest) :
    step s = hostAct a (takeAction rest s) := by
  rw [step, h]

/-- What a step does to the unit, and the host action that makes it do so. -/
inductive UnitEvent (s t : State) : Prop where
  /-- Idle, a read, or a write that is ignored. -/
  | quiet (same : SameUnit s t)
  /-- `H-RESET` (R280). -/
  | reset (head : s.pending.head? = some .reset) (result : t.result = 0x0000#16) (status : t.status = 0x0000#16)
      (tbl : t.tbl = [])
  /-- A host write of entry `i` (R70), by its action or by its register number (R42). -/
  | wrote (i : Byte) (v : U16)
      (head : s.pending.head? = some (.wrTbl i v) ∨ s.pending.head? = some (.wrReg (0x100 + i.toNat) v))
      (result : t.result = s.result) (status : t.status = s.status) (tbl : t.tbl = Memory.write s.tbl i.toNat v)
  /-- A rejected `H-ISSUE` (R252). -/
  | rejected (cw : CmdWord) (data : List Byte) (e : CmdError) (head : s.pending.head? = some (.issue cw data))
      (decoded : decode cw data = .error e) (result : t.result = s.result)
      (status : t.status = Status.withOutcome s.status false (errCode e)) (tbl : t.tbl = s.tbl)
  /-- An accepted `TABLE16` (R141). -/
  | built (cw : CmdWord) (data : List Byte) (p : U16) (head : s.pending.head? = some (.issue cw data))
      (decoded : decode cw data = .ok (.table16 p)) (result : t.result = s.result)
      (status : t.status = Status.withOutcome (Status.withTorient s.status (orientOf p)) true 0#3)
      (tbl : t.tbl = Memory.full (tableEntry (orientOf p) p))
  /-- An accepted command other than `TABLE16` (R41). -/
  | computed (cw : CmdWord) (data : List Byte) (i : Instr) (head : s.pending.head? = some (.issue cw data))
      (decoded : decode cw data = .ok i) (notTable : ∀ p, i ≠ .table16 p)
      (status : t.status = Status.withOutcome s.status true 0#3) (tbl : t.tbl = s.tbl)

/-- An `H-ISSUE` is the event its word decodes to. -/
theorem unitEvent_of_issue {s t : State} {cw : CmdWord} {data : List Byte} {rest : List HostAction}
    (hp : s.pending = .issue cw data :: rest) (h : hIssue cw data (takeAction rest s) = .next t) : UnitEvent s t := by
  have head : s.pending.head? = some (.issue cw data) := by rw [hp, List.head?_cons]
  obtain ⟨i, hi, h'⟩ | ⟨e, he, h'⟩ := hIssue_cases cw data (takeAction rest s)
  · obtain ⟨p, rfl, hres, hst, htbl⟩ | ⟨hn, hst, htbl⟩ := exec_registers (h'.symm.trans h)
    · exact .built cw data p head hi hres hst htbl
    · exact .computed cw data i head hi hn hst htbl
  · cases h.symm.trans h'
    exact .rejected cw data e head he rfl rfl rfl

/-- Everything a step can do to the unit. -/
theorem unitEvent_of_step {s t : State} (h : step s = .next t) : UnitEvent s t := by
  obtain ⟨-, rfl⟩ | ⟨a, rest, hp, h⟩ := step_cases h
  · exact .quiet ⟨rfl, rfl, rfl⟩
  have head : s.pending.head? = some a := by rw [hp, List.head?_cons]
  have same : ∀ {u : State}, SameUnit (takeAction rest s) u → UnitEvent s u :=
    fun hu => .quiet ⟨hu.result, hu.status, hu.tbl⟩
  cases a with
  | issue cw data => exact unitEvent_of_issue hp h
  | wrReg n v =>
    obtain rfl | ⟨i, rfl, rfl⟩ := hWrReg_cases h
    · exact .quiet ⟨rfl, rfl, rfl⟩
    · exact .wrote i v (.inr head) rfl rfl rfl
  | reset => cases h; exact .reset head rfl rfl rfl
  | wrTbl i v => cases h; exact .wrote i v (.inl head) rfl rfl rfl
  | rdRes => cases h; exact same (hReturn_sameUnit _ _)
  | rdStat => cases h; exact same (hReturn_sameUnit _ _)
  | rdTbl i => cases h; exact same (hRdTbl_sameUnit i _)
  | rdReg n => cases h; exact same (hRdReg_sameUnit n _)

end Sys2Proof.Machine
end

section
/-! PROOFS. The invariant of every run (spec/10_state.md R33, R34; spec/70_reset_and_hazards.md R281). -/

namespace Sys2Proof.Machine

theorem upper_of_legal {st : U16} (h : Status.legal st = true) : Status.upper st = 0#11 := by
  simp only [Status.legal, Bool.and_eq_true, beq_iff_eq] at h
  exact h.1.1

/-- An outcome with a code of at most 3, and none beside `DONE`, is legal over zero bits 15:5. -/
theorem legal_withOutcome {st : U16} {done : Bool} {err : BitVec 3} (hup : Status.upper st = 0#11)
    (hle : err.toNat ≤ 3) (hde : done = false ∨ err = 0#3) : Status.legal (Status.withOutcome st done err) = true := by
  obtain rfl | rfl := hde <;> simp [Status.legal, hup, hle]

/-- Every `H-ISSUE` leaves an outcome (R255), so the unit is fresh no more. -/
theorem inv_of_outcome {t : State} {st : U16} {done : Bool} {err : BitVec 3} (hwf : Memory.wf t.tbl = true)
    (hst : t.status = Status.withOutcome st done err) (hup : Status.upper st = 0#11) (hle : err.toNat ≤ 3)
    (hde : done = false ∧ err ≠ 0#3 ∨ done = true ∧ err = 0#3) : t.Inv := by
  refine ⟨hwf, hst ▸ legal_withOutcome hup hle (hde.imp And.left And.right), fun hfresh => ?_⟩
  rw [State.fresh, hst, withOutcome_done, withOutcome_err] at hfresh
  obtain ⟨rfl, he⟩ | ⟨rfl, -⟩ := hde
  · exact absurd (by simpa using hfresh) he
  · cases hfresh

/-- The invariant speaks of the unit's registers only. -/
theorem State.Inv.congr {s t : State} (h : s.Inv) (hres : t.result = s.result) (hst : t.status = s.status)
    (hwf : Memory.wf t.tbl = true) : t.Inv := by
  obtain ⟨-, hlegal, hfresh⟩ := h
  refine ⟨hwf, hst ▸ hlegal, fun hf => ?_⟩
  rw [hres, hst]
  exact hfresh (by rwa [State.fresh, hst] at hf)

/-- A state whose registers hold what reset gives them has the invariant. -/
theorem inv_of_cleared {t : State} (hres : t.result = 0x0000#16) (hst : t.status = 0x0000#16) (htbl : t.tbl = []) :
    t.Inv := by
  rw [State.Inv, hres, hst, htbl]
  exact ⟨rfl, by decide, fun _ => ⟨rfl, by decide⟩⟩

end Sys2Proof.Machine

namespace Sys2Proof.Proofs

open Sys2Proof Sys2Proof.Machine

/-- Settles O60: each event of a step keeps the invariant, an `H-ISSUE` because it leaves an outcome. -/
theorem everyStepKeepsTheInvariant : Obligations.EveryStepKeepsTheInvariant := by
  intro s t hs hstep
  have ⟨hwf, hlegal, _⟩ := hs
  have hup := upper_of_legal hlegal
  cases unitEvent_of_step hstep with
  | quiet same => exact hs.congr same.result same.status (same.tbl ▸ hwf)
  | reset _ hres hst htbl => exact inv_of_cleared hres hst htbl
  | wrote i v _ hres hst htbl => exact hs.congr hres hst (htbl ▸ wf_write s.tbl i v hwf)
  | rejected _ _ e _ _ _ hst htbl =>
    exact inv_of_outcome (htbl ▸ hwf) hst hup (errCode_le e) (.inl ⟨rfl, errCode_ne_zero e⟩)
  | built _ _ p _ _ _ hst htbl =>
    exact inv_of_outcome (htbl ▸ wf_full _) hst ((withTorient_upper ..).trans hup) (Nat.zero_le 3) (.inr ⟨rfl, rfl⟩)
  | computed _ _ _ _ _ _ hst htbl =>
    exact inv_of_outcome (htbl ▸ hwf) hst hup (Nat.zero_le 3) (.inr ⟨rfl, rfl⟩)

/-- Settles O59: reset clears the registers. -/
theorem resetStateIsLegal : Obligations.ResetStateIsLegal := inv_of_cleared rfl rfl rfl

end Sys2Proof.Proofs
end

section
/-! PROOFS. The register space, the outcome of a command and the frame of commands and steps (spec/10_state.md R32 to R42). -/

namespace Sys2Proof.Machine

/-! What a command leaves does not depend on `DONE` and `ERR` before it (R255). -/

theorem readTbl_withStatus (i : Byte) (s : State) (st : U16) :
    readTbl i { s with status := st } = ((readTbl i s).1, { (readTbl i s).2 with status := st }) := by
  obtain ⟨v, hv, h⟩ | ⟨hv, h⟩ := readTbl_cases i s <;> rw [h] <;> simp only [readTbl, hv]

theorem crcTbl_withStatus (o : Orientation) (data : List Byte) (reg : U16) (s : State) (st : U16) :
    crcTbl o data reg { s with status := st } =
      ((crcTbl o data reg s).1, { (crcTbl o data reg s).2 with status := st }) := by
  induction data generalizing reg s with
  | nil => rfl
  | cons b bs ih => simp only [crcTbl, readTbl_withStatus, ih]

/-- `TORIENT` is bit 4, so writing it keeps two words equal above `ERR`. -/
theorem withTorient_congr {st st' : U16} (o : Orientation) (h : st &&& 0xFFF0#16 = st' &&& 0xFFF0#16) :
    Status.withTorient st o &&& 0xFFF0#16 = Status.withTorient st' o &&& 0xFFF0#16 := by
  have hmask (w : U16) : w &&& 0xFFE0#16 = w &&& 0xFFF0#16 &&& 0xFFE0#16 := by
    rw [BitVec.and_assoc]
    rfl
  rw [withTorient_and_mask, withTorient_and_mask, hmask st, hmask st', h]

theorem exec_congr_status (i : Instr) (s : State) {st : U16} (h : st &&& 0xFFF0#16 = s.status &&& 0xFFF0#16) :
    exec i { s with status := st } = exec i s := by
  obtain ⟨p, rfl, h'⟩ | ⟨o, init, data, rfl, h'⟩ | ⟨v, -, -, h'⟩ := exec_cases i s
  · rw [h', ← withOutcome_congr _ _ _ _ (withTorient_congr (orientOf p) h)]
    rfl
  · rw [h', ← withOutcome_congr _ _ _ _ h]
    simp only [exec_crctbl, crcTbl_withStatus, finish_eq]
    rw [crcTbl_frame]
  · rw [h', h', withOutcome_congr _ _ _ _ h]

theorem raiseErr_congr_status (e : CmdError) (s : State) {st : U16} (h : st &&& 0xFFF0#16 = s.status &&& 0xFFF0#16) :
    raiseErr e { s with status := st } = raiseErr e s := by
  rw [raiseErr, raiseErr, withOutcome_congr _ _ _ _ h]

theorem hIssue_congr_status (cw : CmdWord) (data : List Byte) (s : State) {st : U16}
    (h : st &&& 0xFFF0#16 = s.status &&& 0xFFF0#16) : hIssue cw data { s with status := st } = hIssue cw data s := by
  rw [hIssue, hIssue]
  cases decode cw data with
  | ok i => exact exec_congr_status i s h
  | error e => exact congrArg Host.Outcome.next (raiseErr_congr_status e s h)

/-! The outcome of an `H-ISSUE`. -/

/-- What an issued word leaves in `STATUS` (R34, R251): the outcome, and everything else as it was unless it built a table. -/
theorem issue_status {cw : CmdWord} {data : List Byte} {s t : State} (h : hIssue cw data s = .next t) :
    (∃ p, decode cw data = .ok (.table16 p) ∧
      t.status = Status.withOutcome (Status.withTorient s.status (orientOf p)) true 0#3) ∨
    (∃ i, decode cw data = .ok i ∧ t.status = Status.withOutcome s.status true 0#3) ∨
    (∃ e, decode cw data = .error e ∧ t.status = Status.withOutcome s.status false (errCode e)) := by
  obtain ⟨i, hi, h'⟩ | ⟨e, he, h'⟩ := hIssue_cases cw data s
  · obtain ⟨p, rfl, -, hst, -⟩ | ⟨-, hst, -⟩ := exec_registers (h'.symm.trans h)
    · exact .inl ⟨p, hi, hst⟩
    · exact .inr (.inl ⟨i, hi, hst⟩)
  · cases h.symm.trans h'
    exact .inr (.inr ⟨e, he, rfl⟩)

/-- An `H-ISSUE` goes on (R250, R252). -/
theorem hIssue_next (cw : CmdWord) (data : List Byte) (s : State) : ∃ t, hIssue cw data s = .next t := by
  obtain ⟨i, -, h⟩ | ⟨e, -, h⟩ := hIssue_cases cw data s
  · obtain ⟨t, ht⟩ := exec_next i s
    exact ⟨t, h.trans ht⟩
  · exact ⟨_, h⟩

/-! `CRCTBL` over an unwritten entry (R36). -/

/-- The index of a byte has the value of the masked word it is cut from (R159). -/
theorem toNat_setWidth_lowByte (w : U16) : ((w &&& 0x00FF#16).setWidth 8).toNat = (w &&& 0x00FF#16).toNat := by
  have hle : (w &&& 0x00FF#16).toNat ≤ 255 := by
    rw [BitVec.toNat_and]
    exact Nat.and_le_right
  rw [BitVec.toNat_setWidth, Nat.mod_eq_of_lt (by omega)]

/-- In either orientation: the byte after an unmarked run is the first to find an unwritten entry, and its mark stays. -/
theorem crctbl_marks_unwritten {o : Orientation} {init : U16} {pre : List Byte} {b : Byte} {s u : State}
    (rest : List Byte) (h : exec (.crctbl o init pre) s = .next u) (hmark : u.runMark = none)
    (hread : Memory.read? s.tbl (crcIndex o u.result b).toNat = none) :
    ∃ t, exec (.crctbl o init (pre ++ b :: rest)) s = .next t ∧
      t.runMark = some (.unwrittenEntry (crcIndex o u.result b)) := by
  rw [exec_crctbl, finish_eq] at h
  cases h
  obtain ⟨hs, hpre⟩ := crcTbl_unmarked o pre init s hmark
  rw [hpre] at hread ⊢
  refine ⟨_, rfl, ?_⟩
  rw [setDone_runMark, crcTbl_append, hpre, crcTbl_cons_unwritten rest hread]
  exact crcTbl_mark _ _ _ _ _ (by rw [hs, Option.none_or])

end Sys2Proof.Machine

namespace Sys2Proof.Proofs

open Sys2Proof Sys2Proof.Machine

/-- Settles O4: a register number is looked up in the map, and the step is the action of what it names. -/
theorem registerNumbersNameTheirRegisters : Obligations.RegisterNumbersNameTheirRegisters := by
  intro s rest n
  refine ⟨fun hp => ?_, fun v hp => ?_⟩ <;> rw [step_of_pending hp]
  · refine ⟨?result, ?status, ?entry, fun h0 h1 hout => congrArg Host.Outcome.next (hRdReg_zero h0 h1 hout _)⟩
    case result => rintro rfl; rfl
    case status => rintro rfl; rfl
    case entry =>
      rintro i rfl
      exact congrArg Host.Outcome.next (hRdReg_tbl i _)
  · refine ⟨?entry, fun h2 hout => hWrReg_ignored h2 hout v _, ?commandPort⟩
    case entry =>
      rintro i rfl
      exact hWrReg_tbl i v _
    case commandPort => rintro rfl; rfl

/-- Settles O11: the step is the `H-ISSUE`, whose outcome overwrites `DONE` and `ERR`. -/
theorem issueReportsItsOwnOutcome : Obligations.IssueReportsItsOwnOutcome := by
  intro s cw data rest hp
  refine ⟨?_, fun st h => ?_⟩
  · obtain ⟨t, ht⟩ := hIssue_next cw data (takeAction rest s)
    refine ⟨t, (step_of_pending hp).trans ht, ?_⟩
    obtain ⟨p, hd, hst⟩ | ⟨i, hd, hst⟩ | ⟨e, hd, hst⟩ := issue_status ht
    · rw [hst, hd]
      simp
    · rw [hst, hd]
      simp
    · rw [hst, hd]
      simp [errCode_ne_zero]
  · rw [step_of_pending hp, step_of_pending (s := { s with status := st }) hp]
    exact hIssue_congr_status cw data (takeAction rest s) h

/-- Settles O30: each orientation is `crctbl_marks_unwritten` at its own index. -/
theorem unwrittenEntryMarksTheRun : Obligations.UnwrittenEntryMarksTheRun := by
  intro init pre b rest s u
  refine ⟨fun h hmark hread => ?_, fun h hmark hread => ?_⟩
  all_goals
    rw [← toNat_setWidth_lowByte] at hread
    exact crctbl_marks_unwritten rest h hmark hread

/-- Settles O54: the three shapes of a command, each with what its next state keeps. -/
theorem commandsChangeOnlyTheirRow : Obligations.CommandsChangeOnlyTheirRow := by
  intro i s t h
  obtain ⟨p, rfl, h'⟩ | ⟨o, init, data, rfl, h'⟩ | ⟨v, hnt, -, h'⟩ := exec_cases i s
  · cases h.symm.trans h'
    refine ⟨rfl, rfl, by simp, fun hp => absurd rfl (hp p), ?_, fun _ => ⟨rfl, rfl⟩⟩
    rintro _ ⟨⟩
    exact ⟨rfl, withOutcome_withTorient_eq _ _, tblWritten_writeAll _ s⟩
  · cases h.symm.trans h'
    exact ⟨rfl, rfl, by simp, fun _ => ⟨withOutcome_done_eq _, fun _ => rfl⟩, by simp,
      fun hc => absurd rfl (hc o init data)⟩
  · cases h.symm.trans (h' s)
    exact ⟨rfl, rfl, by simp, fun _ => ⟨withOutcome_done_eq _, fun _ => rfl⟩, fun p hp => absurd hp (hnt p),
      fun _ => ⟨rfl, rfl⟩⟩

/-- Settles O57: for each event of a step, the registers it keeps and the clause that names it. -/
theorem onlyTheseEventsChangeTheUnit : Obligations.OnlyTheseEventsChangeTheUnit := by
  intro s t h
  cases unitEvent_of_step h with
  | quiet same => simp [same.result, same.status, same.tbl]
  | reset head => exact ⟨fun _ => .inl head, fun _ => .inl head, fun _ _ => .inl head⟩
  | wrote i v head hres hst htbl =>
    refine ⟨fun hne => absurd hres hne, fun hne => absurd (hst ▸ rfl) hne, fun j hne => ?_⟩
    rw [htbl, read_write] at hne
    obtain rfl : j = i := by
      by_contra hji
      exact hne (if_neg fun heq => hji (BitVec.eq_of_toNat_eq heq))
    exact .inr (.inr (head.imp (⟨v, ·⟩) (⟨v, ·⟩)))
  | rejected _ _ _ _ _ hres hst htbl => simp [hres, hst, htbl]
  | built cw data p head hdec hres =>
    exact ⟨fun hne => absurd hres hne, fun _ => .inr ⟨cw, data, p, head, hdec⟩,
      fun _ _ => .inr (.inl ⟨cw, data, p, head, hdec⟩)⟩
  | computed cw data i head hdec hnt hst htbl =>
    exact ⟨fun _ => .inr ⟨cw, data, i, head, hdec, hnt⟩, by simp [hst], by simp [htbl]⟩

/-- Settles O1: the fields of `STATUS` are those of the zero word, and no entry is listed. -/
theorem resetStateHoldsTheSpecValues : Obligations.ResetStateHoldsTheSpecValues :=
  ⟨rfl, by decide, by decide, by decide, by decide, rfl, fun _ => rfl⟩

end Sys2Proof.Proofs
end

section
/-! PROOFS. The six host actions (spec/20_memory.md R70): what an `H-ISSUE` and an `H-RDTBL` do, and the host's own fields under
them. -/

namespace Sys2Proof.Machine

/-! `H-ISSUE` (R92). -/

theorem hIssue_of_decode_ok {cw : CmdWord} {data : List Byte} {i : Instr} (h : decode cw data = .ok i) (s : State) :
    hIssue cw data s = exec i s := by
  rw [hIssue, h]

theorem hIssue_of_decode_error {cw : CmdWord} {data : List Byte} {e : CmdError} (h : decode cw data = .error e)
    (s : State) : hIssue cw data s = .next (raiseErr e s) := by
  rw [hIssue, h]

/-- `STATUS` after a rejection (R252), as the model writes it and as the statements do. -/
theorem withOutcome_errCode_eq (st : U16) (e : CmdError) :
    Status.withOutcome st false (errCode e) = Spec.rejected st (Spec.code e) := by
  simp [Status.withOutcome, Spec.rejected]

/-- A rejection as the statements write it: `STATUS` is all that changes (R252). -/
theorem raiseErr_eq_rejected (e : CmdError) (s : State) :
    raiseErr e s = { s with status := Spec.rejected s.status (Spec.code e) } := by
  rw [raiseErr, withOutcome_errCode_eq]

/-- A command leaves the host's list and what the last action returned: they are no state of the unit. -/
theorem exec_host_fields {i : Instr} {s t : State} (h : exec i s = .next t) :
    t.pending = s.pending ∧ t.returned = s.returned := by
  obtain ⟨_, -, h'⟩ | ⟨_, _, _, -, h'⟩ | ⟨_, -, -, h'⟩ := exec_cases i s
  · cases h.symm.trans h'
    exact ⟨rfl, rfl⟩
  · cases h.symm.trans h'
    exact ⟨rfl, rfl⟩
  · cases h.symm.trans (h' s)
    exact ⟨rfl, rfl⟩

/-- So does an `H-ISSUE`, accepted or rejected. -/
theorem hIssue_host_fields {cw : CmdWord} {data : List Byte} {s t : State} (h : hIssue cw data s = .next t) :
    t.pending = s.pending ∧ t.returned = s.returned := by
  obtain ⟨_, -, h'⟩ | ⟨e, -, h'⟩ := hIssue_cases cw data s
  · exact exec_host_fields (h'.symm.trans h)
  · cases h.symm.trans h'
    exact ⟨raiseErr_pending e s, raiseErr_returned e s⟩

/-! `H-RDTBL` (R70, R284). -/

theorem hRdTbl_of_written {i : Byte} {v : U16} {s : State} (h : Memory.read? s.tbl i.toNat = some v) :
    hRdTbl i s = hReturn v s := by
  simp only [hRdTbl, readTbl, h]

theorem hRdTbl_returned (i : Byte) (s : State) : (hRdTbl i s).returned = some (readTbl i s).1 := rfl

theorem hRdTbl_pending (i : Byte) (s : State) : (hRdTbl i s).pending = s.pending := by
  rw [hRdTbl, hReturn_pending, readTbl_frame]

end Sys2Proof.Machine

namespace Sys2Proof.Proofs

open Sys2Proof Sys2Proof.Machine

/-- Settles O3: a step is the host's next action, and each action is its row of R70. -/
theorem hostActionsDoWhatTheirTableSays : Obligations.HostActionsDoWhatTheirTableSays := by
  intro s rest
  refine ⟨fun hp => ?reset, fun cw data hp => ?issue, fun hp => step_of_pending hp, fun hp => step_of_pending hp,
    fun i v hp hread => ?written, fun i hp _ => ?unwritten, fun i v hp => ?write⟩
  case reset => exact ⟨_, step_of_pending hp, rfl, rfl, rfl, rfl, rfl⟩
  case issue =>
    obtain ⟨t, ht⟩ := hIssue_next cw data (takeAction rest s)
    obtain ⟨hpending, hreturned⟩ := hIssue_host_fields ht
    refine ⟨t, (step_of_pending hp).trans ht, hreturned, hpending, fun i hd => ?_, fun e hd => ?_⟩
    · exact (hIssue_of_decode_ok hd _).symm.trans ht
    · rw [hIssue_of_decode_error hd, raiseErr_eq_rejected] at ht
      cases ht
      rfl
  case written => exact (step_of_pending hp).trans (congrArg Host.Outcome.next (hRdTbl_of_written hread))
  case unwritten =>
    have same := hRdTbl_sameUnit i (takeAction rest s)
    exact ⟨_, _, step_of_pending hp, hRdTbl_returned i _, hRdTbl_pending i _, same.result, same.status, same.tbl⟩
  case write =>
    refine ⟨_, step_of_pending hp, rfl, rfl, rfl, rfl, ?_, fun j hj => ?_⟩
    · exact (read_write s.tbl i.toNat v i.toNat).trans (if_pos rfl)
    · exact (read_write s.tbl i.toNat v j).trans (if_neg hj)

/-- Settles O5: the step is the `H-ISSUE` at the head of the list, which runs what its word decodes to. -/
theorem stepRunsTheDecodedCommand : Obligations.StepRunsTheDecodedCommand := by
  intro s cw data rest i hp hd
  exact (step_of_pending hp).trans (hIssue_of_decode_ok hd _)

end Sys2Proof.Proofs
end

section
/-! PROOFS. The decoder and the encoder (spec/30_encoding.md R90 to R104): what a command's word is made of, and what a legal word
can be. -/

namespace Sys2Proof

/-! The word of a command. -/

@[simp] theorem encode_op (i : Instr) : CmdWord.op (encode i) = i.op.code := by
  cases i <;> simp [encode, Instr.op]

/-- The word of a command passes the test of its row (R92 step 2). -/
theorem encode_legal (i : Instr) : encode i &&& i.op.format.mask = i.op.matchWord := by
  cases i with
  | reflect16 x => exact Laws.EncodeLegal.reflect16 x
  | table16 p => exact Laws.EncodeLegal.table16 p
  | crctbl o n d => exact Laws.EncodeLegal.crctbl o n d
  | hacker16 p n x r d => exact Laws.EncodeLegal.hacker16 p n x r d
  | modbus n d => exact Laws.EncodeLegal.modbus n d
  | usb16 n d => exact Laws.EncodeLegal.usb16 n d
  | ibm n a d => exact Laws.EncodeLegal.ibm n a d
  | xmodem n d => exact Laws.EncodeLegal.xmodem n d
  | ccittFalse n d => exact Laws.EncodeLegal.ccittFalse n d
  | kermit n d => exact Laws.EncodeLegal.kermit n d
  | mcrf4xx n d => exact Laws.EncodeLegal.mcrf4xx n d
  | x25 n d => exact Laws.EncodeLegal.x25 n d
  | sick n d => exact Laws.EncodeLegal.sick n d
  | dnp n d => exact Laws.EncodeLegal.dnp n d
  | maxim16 n d => exact Laws.EncodeLegal.maxim16 n d
  | dect n d => exact Laws.EncodeLegal.dect n d
  | inet d => exact Laws.EncodeLegal.inet d
  | fletcher16 d => exact Laws.EncodeLegal.fletcher16 d

/-- A command is handed over with data only where its format takes data (R93). -/
theorem takesData_or_data_nil (i : Instr) : i.op.format.takesData = true ∨ i.data = [] := by
  cases i with
  | reflect16 | table16 => exact .inr rfl
  | _ => exact .inl rfl

@[simp] theorem orientation_ofBit_bit (o : Orientation) : Orientation.ofBit o.bit = o := by cases o <;> rfl

@[simp] theorem orientation_bit_ofBit (b : Bool) : (Orientation.ofBit b).bit = b := by cases b <;> rfl

/-- The operands of a command are read back from its word (R94 to R98). -/
theorem instr_encode (i : Instr) : i.op.instr (encode i) i.data = i := by
  cases i <;> simp [Instr.op, Op.instr, encode, Instr.data]

theorem decode_encode (i : Instr) : decode (encode i) i.data = .ok i :=
  decode_eq_ok.mpr ⟨i.op, encode_op i, encode_legal i, takesData_or_data_nil i, (instr_encode i).symm⟩

/-- A word is decoded by recognising it as the word of a command. -/
theorem decode_of_encode_eq {i : Instr} {cw : CmdWord} (h : encode i = cw) : decode cw i.data = .ok i :=
  h ▸ decode_encode i

/-! The reserved opcodes (R102). -/

theorem decode_eq_opcode_error {cw : CmdWord} {data : List Byte} :
    decode cw data = .error .opcode ↔ Op.ofCode (CmdWord.op cw) = none := by
  simp [decode_eq_error]

theorem ofCode_eq_none {c : BitVec 8} : Op.ofCode c = none ↔
    c.toNat = 0 ∨ (5 ≤ c.toNat ∧ c.toNat ≤ 0x0F) ∨ (0x1C ≤ c.toNat ∧ c.toNat ≤ 0x1F) ∨ 0x22 ≤ c.toNat := by
  have hcodes : Op.ofCode c = none ↔ ∀ o ∈ Op.all, o.code.toNat ≠ c.toNat := by
    simp [Op.ofCode, BitVec.toNat_inj]
  rw [hcodes]
  simp only [Op.all, List.forall_mem_cons, List.not_mem_nil, false_imp_iff, implies_true, and_true, Op.code,
    BitVec.toNat_ofNat]
  omega

/-! A legal word and the word of its command (R103, R104). -/

theorem matchWord_getLsbD_of_ge (o : Op) {j : Nat} (hj : 8 ≤ j) : o.matchWord.getLsbD j = false := by
  simp [Op.matchWord, BitVec.getLsbD_of_ge _ j hj]

section
variable {o : Op} {cw m : CmdWord} (h : cw &&& m = o.matchWord)
include h

/-- A bit above the opcode that the format fixes is zero in a legal word. -/
theorem legal_bit (j : Nat) (hj : 8 ≤ j) (hm : m.getLsbD j = true) : cw.getLsbD j = false :=
  unused_bit h hm (matchWord_getLsbD_of_ge o hj)

/-- So is a 16-bit field that the format fixes. -/
theorem legal_field (k : Nat) (hk : 8 ≤ k) (hm : ∀ i, i < 16 → m.getLsbD (k + i) = true) :
    cw.extractLsb' k 16 = 0#16 :=
  unused_field h k fun i hi => ⟨hm i hi, matchWord_getLsbD_of_ge o (by omega)⟩

theorem legal_rf (hm : m.getLsbD 8 = true) : CmdWord.rf cw = false := legal_bit h 8 (by decide) hm

theorem legal_or (hm : m.getLsbD 9 = true) : CmdWord.or cw = false := legal_bit h 9 (by decide) hm

theorem legal_io (hm : m.getLsbD 10 = true) : CmdWord.io cw = false := legal_bit h 10 (by decide) hm

theorem legal_ps (hm : m.getLsbD 11 = true) : CmdWord.ps cw = false := legal_bit h 11 (by decide) hm

theorem legal_poly (hm : ∀ i, i < 16 → m.getLsbD (16 + i) = true) : CmdWord.poly cw = 0#16 :=
  legal_field h 16 (by decide) hm

theorem legal_init (hm : ∀ i, i < 16 → m.getLsbD (32 + i) = true) : CmdWord.init cw = 0#16 :=
  legal_field h 32 (by decide) hm

theorem legal_xorout (hm : ∀ i, i < 16 → m.getLsbD (48 + i) = true) : CmdWord.xorout cw = 0#16 :=
  legal_field h 48 (by decide) hm

end

/-- The reserved bits 15:12 are fixed in every format (R91, R93). -/
theorem legal_reserved {o : Op} {cw : CmdWord} (h : cw &&& o.format.mask = o.matchWord) (j : Nat) (h12 : 12 ≤ j)
    (h16 : j < 16) : cw.getLsbD j = false := by
  refine legal_bit h j (by omega) ?_
  cases o.format <;> interval_cases j <;> rfl

/-- A legal word is packed from its own fields, the opcode first. -/
theorem pack_of_legal {o : Op} {cw : CmdWord} (hop : CmdWord.op cw = o.code)
    (h : cw &&& o.format.mask = o.matchWord) :
    CmdWord.pack o.code (CmdWord.rf cw) (CmdWord.or cw) (CmdWord.io cw) (CmdWord.ps cw) (CmdWord.poly cw)
      (CmdWord.init cw) (CmdWord.xorout cw) = cw :=
  hop ▸ pack_fields cw (legal_reserved h)

/-- The word packed from those fields of `cw` that the opcode's format uses (R94 to R98). -/
def Op.repack (o : Op) (cw : CmdWord) : CmdWord :=
  match o.format with
  | .v => CmdWord.pack o.code false false false false (CmdWord.poly cw) 0#16 0#16
  | .e => CmdWord.pack o.code false (CmdWord.or cw) false false 0#16 (CmdWord.init cw) 0#16
  | .b => CmdWord.pack o.code (CmdWord.rf cw) false false false (CmdWord.poly cw) (CmdWord.init cw) (CmdWord.xorout cw)
  | .p => CmdWord.packPreset o (CmdWord.initOverride cw) false
  | .pi => CmdWord.packPreset o (CmdWord.initOverride cw) (CmdWord.ps cw)
  | .s => CmdWord.pack o.code false false false false 0#16 0#16 0#16

/-- The command an opcode makes of a word is encoded from the fields its format uses. -/
theorem encode_instr (o : Op) (cw : CmdWord) (data : List Byte) : encode (o.instr cw data) = o.repack cw := by
  cases o with
  | crctbl => simp [Op.instr, encode, Op.repack, Op.format]
  | _ => rfl

/-- The data of a command is what it was handed over with. -/
theorem instr_data {o : Op} {data : List Byte} (h : o.format.takesData = true ∨ data = []) (cw : CmdWord) :
    (o.instr cw data).data = data := by
  cases o with
  | reflect16 | table16 => simpa [Op.instr, Instr.data, Op.format, Format.takesData, eq_comm] using h
  | _ => rfl

/-- Clearing bits 47:32 of a packed word clears its `INIT`. -/
theorem pack_clear_init (op : BitVec 8) (rf or io ps : Bool) (poly init xorout : U16) :
    CmdWord.pack op rf or io ps poly init xorout &&& 0xFFFF0000FFFFFFFF#64 =
      CmdWord.pack op rf or io ps poly 0#16 xorout := by
  have hmask : ∀ j, j < 64 → (0xFFFF0000FFFFFFFF#64).getLsbD j = !(decide (32 ≤ j) && decide (j < 48)) := by decide
  apply CmdWord.ext_bits
  intro j hj
  rw [BitVec.getLsbD_and, getLsbD_pack _ _ _ _ _ _ _ _ _ hj, getLsbD_pack _ _ _ _ _ _ _ _ _ hj, hmask j hj]
  by_cases hinit : 32 ≤ j ∧ j < 48
  · have hop : op.getLsbD j = false := BitVec.getLsbD_of_ge _ _ (by omega)
    have hpoly : poly.getLsbD (j - 16) = false := BitVec.getLsbD_of_ge _ _ (by omega)
    simp [hop, hpoly, hinit, show j ≠ 8 by omega, show j ≠ 9 by omega, show j ≠ 10 by omega, show j ≠ 11 by omega]
  · have hfield : (decide (32 ≤ j) && init.getLsbD (j - 32)) = false := by
      by_cases h32 : 32 ≤ j
      · rw [BitVec.getLsbD_of_ge _ _ (by omega), Bool.and_false]
      · simp [h32]
    rw [hfield, ← Bool.decide_and, decide_eq_false hinit]
    simp

/-- A word of a preset, repacked: `INIT` is kept with `IO = 1` and cleared with `IO = 0` (R97). -/
theorem packPreset_initOverride_self (o : Op) (cw : CmdWord) (ps : Bool)
    (h : CmdWord.pack o.code false false (CmdWord.io cw) ps 0#16 (CmdWord.init cw) 0#16 = cw) :
    CmdWord.packPreset o (CmdWord.initOverride cw) ps =
      if CmdWord.io cw = false then cw &&& 0xFFFF0000FFFFFFFF#64 else cw := by
  cases hio : CmdWord.io cw with
  | true => simpa [CmdWord.packPreset, CmdWord.initOverride, hio] using h
  | false =>
    rw [hio] at h
    calc CmdWord.packPreset o (CmdWord.initOverride cw) ps
      _ = CmdWord.pack o.code false false false ps 0#16 0#16 0#16 := by
          simp [CmdWord.packPreset, CmdWord.initOverride, hio]
      _ = CmdWord.pack o.code false false false ps 0#16 (CmdWord.init cw) 0#16 &&& 0xFFFF0000FFFFFFFF#64 :=
          (pack_clear_init ..).symm
      _ = cw &&& 0xFFFF0000FFFFFFFF#64 := by rw [h]
      _ = _ := (if_pos rfl).symm

/-- The presets are the opcodes `0x10` to `0x1B` (R101). -/
theorem preset_iff_code (o : Op) :
    (o.format = .p ∨ o.format = .pi) ↔ 0x10 ≤ o.code.toNat ∧ o.code.toNat ≤ 0x1B := by
  cases o <;> decide

/-- A legal word has zero in every field its format does not use, so repacking changes at most the ignored `INIT` of a preset. -/
theorem repack_of_legal {o : Op} {cw : CmdWord} (hop : CmdWord.op cw = o.code)
    (h : cw &&& o.format.mask = o.matchWord) :
    o.repack cw = if (o.format = .p ∨ o.format = .pi) ∧ CmdWord.io cw = false then cw &&& 0xFFFF0000FFFFFFFF#64
      else cw := by
  have hpack := pack_of_legal hop h
  cases hf : o.format <;> rw [hf] at h <;>
    simp only [Op.repack, hf, reduceCtorEq, or_true, or_false, true_and, false_and, if_false]
  case v =>
    rwa [legal_rf h rfl, legal_or h rfl, legal_io h rfl, legal_ps h rfl, legal_init h (by decide),
      legal_xorout h (by decide)] at hpack
  case e =>
    rwa [legal_rf h rfl, legal_io h rfl, legal_ps h rfl, legal_poly h (by decide), legal_xorout h (by decide)] at hpack
  case b => rwa [legal_or h rfl, legal_io h rfl, legal_ps h rfl] at hpack
  case p =>
    rw [legal_rf h rfl, legal_or h rfl, legal_ps h rfl, legal_poly h (by decide), legal_xorout h (by decide)] at hpack
    exact packPreset_initOverride_self o cw false hpack
  case pi =>
    rw [legal_rf h rfl, legal_or h rfl, legal_poly h (by decide), legal_xorout h (by decide)] at hpack
    exact packPreset_initOverride_self o cw (CmdWord.ps cw) hpack
  case s =>
    rwa [legal_rf h rfl, legal_or h rfl, legal_io h rfl, legal_ps h rfl, legal_poly h (by decide),
      legal_init h (by decide), legal_xorout h (by decide)] at hpack

end Sys2Proof

namespace Sys2Proof.Proofs

open Sys2Proof Sys2Proof.Machine

/-- Settles O12: the opcode of the word is read back, the word is legal, and its fields are the operands. -/
theorem decodeOfEncodeIsTheCommand : Obligations.DecodeOfEncodeIsTheCommand := decode_encode

/-- Settles O9: the error means that no row of R100 has the code. -/
theorem reservedOpcodesAreRejected : Obligations.ReservedOpcodesAreRejected :=
  fun _ _ => decode_eq_opcode_error.trans ofCode_eq_none

/-- Settles O13: a legal word is repacked from the fields its format uses, and the others are zero but for an ignored `INIT`. -/
theorem acceptedWordIsItsEncodingButForIgnoredInit : Obligations.AcceptedWordIsItsEncodingButForIgnoredInit := by
  intro cw data i h
  obtain ⟨o, hop, hlegal, hdata, rfl⟩ := decode_eq_ok.mp h
  refine ⟨instr_data hdata cw, ?_⟩
  rw [encode_instr, repack_of_legal hop hlegal]
  simp only [preset_iff_code, ← hop, and_assoc]
  rfl

/-- Settles O14: each word is the encoding of its command. -/
theorem encodingExamplesDecodeAsTheSpecSays : Obligations.EncodingExamplesDecodeAsTheSpecSays := by
  unfold Obligations.EncodingExamplesDecodeAsTheSpecSays
  intro cs
  exact ⟨decode_of_encode_eq (i := .reflect16 0x8005#16) rfl,
    decode_of_encode_eq (i := .table16 0xA001#16) rfl,
    decode_of_encode_eq (i := .crctbl .low 0xFFFF#16 cs) rfl,
    decode_of_encode_eq (i := .hacker16 0x1021#16 0xFFFF#16 0x0000#16 false cs) rfl,
    decode_of_encode_eq (i := .hacker16 0x8005#16 0x0000#16 0xFFFF#16 true []) rfl,
    decode_of_encode_eq (i := .modbus none cs) rfl,
    decode_of_encode_eq (i := .modbus (some 0x1234#16) []) rfl,
    decode_of_encode_eq (i := .ibm none true []) rfl,
    decode_of_encode_eq (i := .inet []) rfl,
    decode_of_encode_eq (i := .fletcher16 []) rfl⟩

end Sys2Proof.Proofs
end

section
/-! PROOFS. The assembler (spec/30_encoding.md R105 to R107): looking an operand up, and the word of a line. -/

namespace Sys2Proof.Machine

@[simp] theorem asmGet_nil (n : AsmOperand) : asmGet [] n = none := rfl

theorem asmGet_cons (p : AsmOperand × Nat) (ops : AsmOperands) (n : AsmOperand) :
    asmGet (p :: ops) n = if p.1 = n then some p.2 else asmGet ops n := by
  by_cases h : p.1 = n <;> simp [asmGet, h]

/-- Operands given once each are looked up alike in any order. -/
theorem asmGet_perm {ops ops' : AsmOperands} (h : ops.Perm ops') (hnd : (ops.map Prod.fst).Nodup) (n : AsmOperand) :
    asmGet ops n = asmGet ops' n := by
  induction h with
  | nil => rfl
  | cons p _ ih => rw [asmGet_cons, asmGet_cons, ih hnd.of_cons]
  | swap p q l =>
    have hne : q.1 ≠ p.1 := fun heq => by simp [heq] at hnd
    simp only [asmGet_cons]
    split_ifs with hq hp
    · exact absurd (hq.trans hp.symm) hne
    · rfl
    · rfl
    · rfl
  | trans h₁ _ ih₁ ih₂ => exact (ih₁ hnd).trans (ih₂ ((h₁.map _).nodup hnd))

/-- A line's command depends on its operands through their values only. -/
theorem asmInstr_congr {ops ops' : AsmOperands} (h : asmGet ops = asmGet ops') (o : Op) :
    asmInstr o ops = asmInstr o ops' := by
  simp only [asmInstr, asmFlag, asmGet16, h]

theorem operands_nodup (name : AsmName) : name.operands.Nodup := by
  rcases name with o | _
  · cases o <;> decide
  all_goals decide

/-- A line whose operands are among those of its name, each at most once, gives the word of its command. -/
theorem asmWord_of_sublist {name : AsmName} {ops : AsmOperands} (h : (ops.map Prod.fst).Sublist name.operands) :
    asmWord name ops = (asmInstr name.expand ops).map encode := by
  have hall : (ops.map Prod.fst).all (fun n => name.operands.contains n) = true :=
    List.all_eq_true.mpr fun n hn => List.contains_iff_mem.mpr (h.subset hn)
  have hnd : (ops.map Prod.fst).Nodup := h.nodup (operands_nodup name)
  simp only [asmWord, hall, hnd, decide_true, Bool.and_self, if_true]

/-- An operand that may be left out, as a line gives it. -/
def asmGiven (n : AsmOperand) (v : Option Nat) : AsmOperands := (v.map (fun k => (n, k))).toList

theorem asmGiven_sublist (n : AsmOperand) (v : Option Nat) : ((asmGiven n v).map Prod.fst).Sublist [n] := by
  cases v with
  | none => exact List.nil_sublist _
  | some k => exact List.Sublist.refl _

theorem asmGet_append (l l' : AsmOperands) (n : AsmOperand) :
    asmGet (l ++ l') n = (asmGet l n).or (asmGet l' n) := by
  simp [asmGet, Option.map_or]

theorem asmGet_asmGiven (m : AsmOperand) (v : Option Nat) (n : AsmOperand) :
    asmGet (asmGiven m v) n = if m = n then v else none := by
  cases v with
  | none => simp [asmGiven]
  | some k => simp [asmGiven, asmGet_cons]

/-- A preset line (R106): `init` is its one operand, and without it the word is the opcode alone. -/
theorem asmWord_preset {o : Op} {cmd : Option U16 → List Byte → Instr} (hops : AsmName.operands (.op o) = [.init])
    (hcmd : ∀ ops, asmInstr o ops = some (cmd (asmGet16 ops .init) []))
    (henc : encode (cmd none []) = o.code.setWidth 64) :
    asmWord (.op o) [] = some (o.code.setWidth 64) ∧
      ∀ i, asmWord (.op o) (asmGiven .init i) = some (encode (cmd (i.map (BitVec.ofNat 16)) [])) := by
  have hword (i : Option Nat) :
      asmWord (.op o) (asmGiven .init i) = some (encode (cmd (i.map (BitVec.ofNat 16)) [])) := by
    rw [asmWord_of_sublist (hops ▸ asmGiven_sublist .init i)]
    simp [AsmName.expand, hcmd, asmGet16, asmGet_asmGiven]
  exact ⟨henc ▸ hword none, hword⟩

/-- `REFLECT16` requires `x` (R106). -/
theorem asmWord_reflect16 (v : Option Nat) :
    asmWord (.op .reflect16) (asmGiven .x v) = v.map (fun k => encode (.reflect16 (BitVec.ofNat 16 k))) := by
  rw [asmWord_of_sublist (asmGiven_sublist .x v)]
  simp [AsmName.expand, asmInstr, asmGet16, asmGet_asmGiven, Function.comp_def]

/-- `TABLE16` requires `poly` (R106). -/
theorem asmWord_table16 (v : Option Nat) :
    asmWord (.op .table16) (asmGiven .poly v) = v.map (fun k => encode (.table16 (BitVec.ofNat 16 k))) := by
  rw [asmWord_of_sublist (asmGiven_sublist .poly v)]
  simp [AsmName.expand, asmInstr, asmGet16, asmGet_asmGiven, Function.comp_def]

/-- `CRCTBL` requires `or` and `init` (R106). -/
theorem asmWord_crctbl (r i : Option Nat) :
    asmWord (.op .crctbl) (asmGiven .or r ++ asmGiven .init i) =
      r.bind fun b => i.map fun k => encode (.crctbl (Orientation.ofBit (b == 1)) (BitVec.ofNat 16 k) []) := by
  have hkeys : ((asmGiven .or r ++ asmGiven .init i).map Prod.fst).Sublist (AsmName.operands (.op .crctbl)) := by
    rw [List.map_append]
    exact (asmGiven_sublist .or r).append (asmGiven_sublist .init i)
  rw [asmWord_of_sublist hkeys]
  cases r <;> cases i <;> simp [AsmName.expand, asmInstr, asmGet16, asmGet_append, asmGet_asmGiven]

/-- A default filled in, as the statements write it. -/
theorem elim_ofNat_eq_getD (v : Option Nat) (d : U16) :
    v.elim d (BitVec.ofNat 16) = (v.map (BitVec.ofNat 16)).getD d := by
  cases v <;> rfl

/-- `HACKER16` takes any of its four operands (R106). -/
theorem asmWord_hacker16 (p i x r : Option Nat) :
    asmWord (.op .hacker16) (asmGiven .poly p ++ asmGiven .init i ++ asmGiven .xorout x ++ asmGiven .reflect r) =
      some (encode (.hacker16 (p.elim 0x1021#16 (BitVec.ofNat 16)) (i.elim 0xFFFF#16 (BitVec.ofNat 16))
        (x.elim 0x0000#16 (BitVec.ofNat 16)) (r.getD 0 == 1) [])) := by
  have hkeys : ((asmGiven .poly p ++ asmGiven .init i ++ asmGiven .xorout x ++ asmGiven .reflect r).map Prod.fst).Sublist
      (AsmName.operands (.op .hacker16)) := by
    simp only [List.map_append]
    exact (((asmGiven_sublist .poly p).append (asmGiven_sublist .init i)).append (asmGiven_sublist .xorout x)).append
      (asmGiven_sublist .reflect r)
  rw [asmWord_of_sublist hkeys]
  simp [AsmName.expand, asmInstr, asmGet16, asmFlag, asmGet_append, asmGet_asmGiven, elim_ofNat_eq_getD]

/-- `IBM` takes `init` and `alt` (R106). -/
theorem asmWord_ibm (i r : Option Nat) :
    asmWord (.op .ibm) (asmGiven .init i ++ asmGiven .alt r) =
      some (encode (.ibm (i.map (BitVec.ofNat 16)) (r.getD 0 == 1) [])) := by
  have hkeys : ((asmGiven .init i ++ asmGiven .alt r).map Prod.fst).Sublist (AsmName.operands (.op .ibm)) := by
    rw [List.map_append]
    exact (asmGiven_sublist .init i).append (asmGiven_sublist .alt r)
  rw [asmWord_of_sublist hkeys]
  simp [AsmName.expand, asmInstr, asmGet16, asmFlag, asmGet_append, asmGet_asmGiven]

/-- The spellings of a one-bit operand: left out or 0, and 1. -/
theorem flag_of_mem_spellings : ∀ r ∈ [((none : Option Nat), false), (some 0, false), (some 1, true)],
    (r.1.getD 0 == 1) = r.2 := by
  decide

/-- Two names with the same operands and the same command are the same to the assembler. -/
theorem asmWord_congr_name {name name' : AsmName} {ops : AsmOperands} (hops : name.operands = name'.operands)
    (hexp : name.expand = name'.expand) : asmWord name ops = asmWord name' ops := by
  simp only [asmWord, hops, hexp]

end Sys2Proof.Machine

namespace Sys2Proof.Proofs

open Sys2Proof Sys2Proof.Machine

/-- Settles O16: the checks of a line see its operands as a set, and its command sees their values. -/
theorem assemblerOperandsComeInAnyOrder : Obligations.AssemblerOperandsComeInAnyOrder := by
  intro name ops ops' h
  have hkeys : (ops.map Prod.fst).Perm (ops'.map Prod.fst) := h.map Prod.fst
  by_cases hnd : (ops.map Prod.fst).Nodup
  · have hget : asmGet ops = asmGet ops' := funext (asmGet_perm h hnd)
    simp only [asmWord, hkeys.all_eq, hkeys.nodup_iff, asmInstr_congr hget]
  · have hnd' : ¬ (ops'.map Prod.fst).Nodup := fun h' => hnd (hkeys.nodup_iff.mpr h')
    simp [asmWord, hnd, hnd']

/-- Settles O15: a line with operands of its name gives its command, whose values are those given or the defaults. -/
theorem assemblerFillsInTheDefaults : Obligations.AssemblerFillsInTheDefaults := by
  unfold Obligations.AssemblerFillsInTheDefaults
  intro given val
  refine ⟨asmWord_reflect16, asmWord_table16,
    fun i r => ⟨asmWord_crctbl none i, (asmWord_crctbl r none).trans (Option.bind_fun_none r), fun k =>
      ⟨asmWord_crctbl (some 0) (some k), asmWord_crctbl (some 1) (some k)⟩⟩,
    fun p i x r hr => flag_of_mem_spellings r hr ▸ asmWord_hacker16 p i x r.1, ?presets,
    fun i r hr => flag_of_mem_spellings r hr ▸ asmWord_ibm i r.1, rfl, rfl⟩
  case presets =>
    simp only [List.forall_mem_cons]
    refine ⟨?_, ?_, ?_, ?_, ?_, ?_, ?_, ?_, ?_, ?_, ?_, List.forall_mem_nil _⟩
    all_goals exact asmWord_preset rfl (fun _ => rfl) rfl

/-- Settles O17: a pseudo-instruction has the operands of its command, but for `CRCBIT`, which leaves out an `xorout` of 0. -/
theorem pseudoInstructionsExpandToOneCommand : Obligations.PseudoInstructionsExpandToOneCommand := by
  refine ⟨fun p i r => ?crcbit, fun p => asmWord_congr_name rfl rfl, asmWord_congr_name rfl rfl,
    fun i => asmWord_congr_name rfl rfl,
    ⟨asmWord_congr_name rfl rfl, asmWord_congr_name rfl rfl, asmWord_congr_name rfl rfl⟩, asmWord_congr_name rfl rfl⟩
  case crcbit => exact (asmWord_of_sublist (.refl _)).trans (asmWord_of_sublist (.refl _)).symm

end Sys2Proof.Proofs
end

section
/-! PROOFS. The bit-reflection unit (spec/40_reflect.md R130 to R132): `reflect16` is the library's `BitVec.reverse`, and its laws
are read off bit by bit. -/

namespace Sys2Proof.Machine

/-! The loop of R131, one bit of the result at a time. -/

/-- One round of the loop of R131. -/
def reflectRound (x r : U16) (i : Nat) : U16 := if x.getLsbD i then r ||| (1#16 <<< (15 - i)) else r

theorem reflect16_eq_foldl (x : U16) : reflect16 x = (List.range 16).foldl (reflectRound x) 0#16 := rfl

/-- Round `i` sets bit `15 - i` where bit `i` of the operand is set, and no other bit. -/
theorem getLsbD_reflectRound (x r : U16) (i j : Nat) :
    (reflectRound x r i).getLsbD j = (r.getLsbD j || (x.getLsbD i && decide (15 - i = j))) := by
  rw [reflectRound, ← BitVec.twoPow_eq]
  cases x.getLsbD i with
  | false => simp
  | true =>
    have hlt : 15 - i < 16 := by omega
    simp [BitVec.getLsbD_twoPow, hlt]

theorem getLsbD_foldl_reflectRound (x r : U16) (l : List Nat) (j : Nat) :
    (l.foldl (reflectRound x) r).getLsbD j = (r.getLsbD j || l.any fun i => x.getLsbD i && decide (15 - i = j)) := by
  induction l generalizing r with
  | nil => simp
  | cons i l ih => rw [List.foldl_cons, ih, getLsbD_reflectRound, List.any_cons, Bool.or_assoc]

/-- Bit by bit (R130): bit `j` is set by the round of bit `15 - j` alone. -/
theorem getLsbD_reflect16 (x : U16) {j : Nat} (hj : j < 16) : (reflect16 x).getLsbD j = x.getLsbD (15 - j) := by
  rw [reflect16_eq_foldl, getLsbD_foldl_reflectRound, BitVec.getLsbD_zero, Bool.false_or, Bool.eq_iff_iff]
  simp only [List.any_eq_true, List.mem_range, Bool.and_eq_true, decide_eq_true_eq]
  constructor
  · rintro ⟨i, hi, hbit, hij⟩
    rwa [show 15 - j = i by omega]
  · exact fun hbit => ⟨15 - j, by omega, hbit, by omega⟩

/-- Bit by bit in the words of R130. -/
theorem getLsbD_reflect16_sub (x : U16) {i : Nat} (hi : i < 16) : (reflect16 x).getLsbD (15 - i) = x.getLsbD i := by
  rw [getLsbD_reflect16 x (by omega), show 15 - (15 - i) = i by omega]

theorem reflect16_eq_reverse (x : U16) : reflect16 x = x.reverse := by
  apply BitVec.eq_of_getLsbD_eq
  intro j hj
  rw [getLsbD_reflect16 x hj, BitVec.getLsbD_reverse, BitVec.getMsbD, decide_eq_true hj, Bool.true_and]

/-! The laws of R132. -/

@[simp] theorem reflect16_reflect16 (x : U16) : reflect16 (reflect16 x) = x := by
  rw [reflect16_eq_reverse, reflect16_eq_reverse, BitVec.reverse_reverse_eq]

theorem reflect16_bijective : Function.Bijective reflect16 := Function.Involutive.bijective reflect16_reflect16

theorem reflect16_xor (a b : U16) : reflect16 (a ^^^ b) = reflect16 a ^^^ reflect16 b := by
  apply BitVec.eq_of_getLsbD_eq
  intro j hj
  simp only [getLsbD_reflect16 _ hj, BitVec.getLsbD_xor]

/-- The byte at bit `k` goes reversed to bit `8 - k`: the two bytes change places. -/
theorem extractLsb'_reflect16 (x : U16) {k : Nat} (hk : k ≤ 8) :
    (reflect16 x).extractLsb' (8 - k) 8 = (x.extractLsb' k 8).reverse := by
  apply BitVec.eq_of_getLsbD_eq
  intro j hj
  have hbit : 15 - (8 - k + j) = k + (7 - j) := by omega
  have hrev : 7 - j < 8 := by omega
  rw [BitVec.getLsbD_extractLsb', getLsbD_reflect16 x (by omega), hbit, BitVec.getLsbD_reverse, BitVec.getMsbD,
    BitVec.getLsbD_extractLsb']
  simp [hj, hrev]

/-! The numeric form of R130. -/

/-- A number modulo `2 ^ k` is the sum of its low `k` bits at their weights. -/
theorem mod_two_pow_eq_sum_bits (n k : Nat) :
    n % 2 ^ k = ((List.range k).map (fun i => (n.testBit i).toNat * 2 ^ i)).sum := by
  induction k with
  | zero => simp [Nat.mod_one]
  | succ k ih => simp [Nat.mod_pow_succ, ih, List.range_succ, Nat.toNat_testBit, Nat.mul_comm]

theorem toNat_eq_sum_bits (x : U16) :
    x.toNat = ((List.range 16).map (fun i => (x.getLsbD i).toNat * 2 ^ i)).sum :=
  (Nat.mod_eq_of_lt x.isLt).symm.trans (mod_two_pow_eq_sum_bits x.toNat 16)

/-- The places `15 - i` are the places `i` in another order. -/
theorem range_sub_perm : ((List.range 16).map (15 - ·)).Perm (List.range 16) := by decide

theorem toNat_reflect16 (x : U16) :
    (reflect16 x).toNat = ((List.range 16).map (fun i => (x.getLsbD i).toNat * 2 ^ (15 - i))).sum := by
  rw [toNat_eq_sum_bits, ← (range_sub_perm.map _).sum_eq, List.map_map]
  refine congrArg List.sum (List.map_congr_left fun i hi => ?_)
  rw [Function.comp_apply, getLsbD_reflect16_sub x (List.mem_range.mp hi)]

/-! The command (R131). -/

/-- `REFLECT16` as the statements write its next state. -/
theorem exec_reflect16 (x : U16) (s : State) :
    exec (.reflect16 x) s = .next { s with result := reflect16 x, status := Spec.done s.status } := by
  rw [← withOutcome_done_eq]
  exact finish_eq (reflect16 x) s

end Sys2Proof.Machine

namespace Sys2Proof.Proofs

open Sys2Proof Sys2Proof.Machine

/-- Settles O18: the value written is `reflect16` of the operand. -/
theorem reflect16WritesTheBitReversal : Obligations.Reflect16WritesTheBitReversal :=
  fun x s => ⟨reflect16 x, exec_reflect16 x s, fun _ hi => getLsbD_reflect16_sub x hi⟩

/-- Settles O19: the sum is the value of the result with its bits taken in the other order. -/
theorem reflect16ReversesBits : Obligations.Reflect16ReversesBits :=
  fun x => ⟨fun _ hi => getLsbD_reflect16_sub x hi, reflect16_reflect16 x, toNat_reflect16 x⟩

/-- Settles O20: the second `REFLECT16` reverses the bits that the first one left in `RESULT`. -/
theorem reflect16Laws : Obligations.Reflect16Laws := by
  refine ⟨reflect16_reflect16, reflect16_bijective, reflect16_xor,
    fun x => ⟨extractLsb'_reflect16 x (Nat.zero_le 8), extractLsb'_reflect16 x (Nat.le_refl 8)⟩, fun x s t h => ?twice⟩
  case twice =>
    cases (exec_reflect16 x s).symm.trans h
    exact ⟨_, exec_reflect16 _ _, reflect16_reflect16 x⟩

end Sys2Proof.Proofs
end

section
/-! PROOFS. The table generator (spec/41_table_builder.md R140 to R147): what `TABLE16` leaves, the entry functions as rounds of
a map that is linear over xor, and the loop of single writes. -/

namespace Sys2Proof.Machine

/-! The command (R140, R141). -/

/-- `TABLE16` as the statements write its next state. -/
theorem exec_table16 (p : U16) (s : State) :
    exec (.table16 p) s =
      .next { s with tbl := Memory.full (tableEntry (orientOf p) p), status := Spec.doneTable s.status p } := by
  rw [← withOutcome_withTorient_eq]
  rfl

@[simp] theorem torient_doneTable (st p : U16) : Status.torient (Spec.doneTable st p) = p.getLsbD 15 := by
  rw [← withOutcome_withTorient_eq, withOutcome_torient, withTorient_torient, orientOf_bit]

theorem tableEntry_orientOf (p : U16) (b : Byte) :
    tableEntry (orientOf p) p b = if p.getLsbD 15 = true then lowEntry p b else highEntry p b := by
  rw [orientOf]
  cases p.getLsbD 15 <;> rfl

/-- The entries of R148, as the statements write them. -/
theorem specEntry_eq_tableEntry (o : Orientation) (p : U16) : Spec.entry o p = tableEntry o p := by
  funext b
  cases o <;> rfl

/-! The eight steps of an entry (R142, R143). -/

/-- A sequence whose next value is `f` of the last, for its first `n` steps, ends at the `n`-th iterate of `f`. -/
theorem eq_iterate_of_steps {α : Type} {f : α → α} {w : Nat → α} {n : Nat} (h : ∀ k, k < n → w (k + 1) = f (w k)) :
    w n = f^[n] (w 0) := by
  induction n with
  | zero => rfl
  | succ n ih =>
    rw [h n (Nat.lt_succ_self n), ih fun k hk => h k (Nat.lt_succ_of_lt hk), Function.iterate_succ_apply']

/-! The laws of entries (R145). -/

theorem byteHigh_xor (a b : Byte) : byteHigh (a ^^^ b) = byteHigh a ^^^ byteHigh b := by
  rw [byteHigh, BitVec.setWidth_xor, BitVec.shiftLeft_xor_distrib, byteHigh, byteHigh]

theorem byteLow_xor (a b : Byte) : byteLow (a ^^^ b) = byteLow a ^^^ byteLow b := BitVec.setWidth_xor

/-- `HIGH` entries are linear over xor in the byte (R145 (c)). -/
theorem highEntry_xor (p : U16) (a b : Byte) : highEntry p (a ^^^ b) = highEntry p a ^^^ highEntry p b := by
  rw [highEntry, byteHigh_xor, iterate_xor (shiftHigh_xor p), highEntry, highEntry]

/-- `LOW` entries are linear over xor in the byte (R145 (c)). -/
theorem lowEntry_xor (p : U16) (a b : Byte) : lowEntry p (a ^^^ b) = lowEntry p a ^^^ lowEntry p b := by
  rw [lowEntry, byteLow_xor, iterate_xor (shiftLow_xor p), lowEntry, lowEntry]

/-- A map that is linear over xor takes zero to zero. -/
theorem map_zero_of_xor {f : Byte → U16} (h : ∀ a b, f (a ^^^ b) = f a ^^^ f b) : f 0#8 = 0#16 := by
  simpa using h 0#8 0#8

/-- Seven steps carry the one bit of the byte 1 to the top, and the eighth takes the polynomial in (R145 (b)). -/
theorem highEntry_one (p : U16) : highEntry p 0x01#8 = p := by
  have hseven : (shiftHigh p)^[7] (byteHigh 0x01#8) = 0x8000#16 := by simp [shiftHigh, byteHigh]
  rw [highEntry, Function.iterate_succ_apply', hseven]
  exact BitVec.zero_xor

/-- Against the zero polynomial a step only shifts. -/
theorem iterate_shiftHigh_zero (n : Nat) (w : U16) : (shiftHigh 0#16)^[n] w = w <<< n := by
  induction n with
  | zero => simp
  | succ n ih => rw [Function.iterate_succ_apply', ih, shiftHigh, BitVec.xor_zero, ite_self, BitVec.shiftLeft_add]

/-- Eight shifts take the byte out of the register at the top (R145 (d)). -/
theorem highEntry_zero_poly (b : Byte) : highEntry 0#16 b = 0#16 := by
  rw [highEntry, iterate_shiftHigh_zero, byteHigh, ← BitVec.shiftLeft_add]
  exact BitVec.shiftLeft_eq_zero (Nat.le_refl 16)

/-- The bitwise engine over one byte from zero (R145 (e)). -/
theorem highEntry_eq_crcBitwise (p : U16) (b : Byte) : highEntry p b = crcBitwise [b] p 0#16 false := by
  rw [crcBitwise, List.foldl_cons, List.foldl_nil, bitwiseStep, BitVec.zero_xor]
  rfl

/-! Bit reversal turns a step most significant bit first into one least significant bit first (R145 (f)), and so the laws of
`HIGH` entries into those of `LOW` entries. -/

theorem reflect16_shiftLeft_one (w : U16) : reflect16 (w <<< 1) = reflect16 w >>> 1 := by
  apply BitVec.eq_of_getLsbD_eq
  intro j _
  rw [reflect16_eq_reverse, reflect16_eq_reverse, BitVec.getLsbD_reverse, BitVec.getMsbD_shiftLeft,
    BitVec.getLsbD_ushiftRight, BitVec.getLsbD_reverse, Nat.add_comm]

theorem reflect16_byteHigh_reverse (b : Byte) : reflect16 (byteHigh b.reverse) = byteLow b := by
  apply BitVec.eq_of_getLsbD_eq
  intro j hj
  rw [reflect16_eq_reverse, BitVec.getLsbD_reverse, byteHigh, BitVec.getMsbD_shiftLeft, BitVec.getMsbD_setWidth,
    BitVec.getMsbD_reverse, byteLow, BitVec.getLsbD_setWidth]
  simp [hj]

theorem reflect16_shiftHigh (q : U16) : Function.Semiconj reflect16 (shiftHigh q) (shiftLow (reflect16 q)) := by
  intro w
  have hbit : (reflect16 w).getLsbD 0 = w.getLsbD 15 := getLsbD_reflect16 w (by decide)
  rw [shiftHigh, shiftLow, hbit]
  cases w.getLsbD 15 <;> simp [reflect16_xor, reflect16_shiftLeft_one]

theorem lowEntry_reflect16 (q : U16) (b : Byte) : lowEntry (reflect16 q) b = reflect16 (highEntry q b.reverse) := by
  rw [highEntry, (reflect16_shiftHigh q).iterate_right 8, reflect16_byteHigh_reverse, lowEntry]

/-- The mirror image of `highEntry_one`. -/
theorem lowEntry_top (p : U16) : lowEntry p 0x80#8 = p := by
  have hrev : (0x80#8).reverse = 0x01#8 := by decide
  rw [← reflect16_reflect16 p, lowEntry_reflect16, hrev, highEntry_one]

/-- The mirror image of `highEntry_zero_poly`. -/
theorem lowEntry_zero_poly (b : Byte) : lowEntry 0#16 b = 0#16 := by
  have hzero : reflect16 0#16 = 0#16 := by decide
  rw [← hzero, lowEntry_reflect16, highEntry_zero_poly]

/-! `CRCTBL` over one byte from zero (R147). -/

theorem setWidth_byteLow_and (b : Byte) : (byteLow b &&& 0x00FF#16).setWidth 8 = b := by
  have hmask : (0x00FF#16).setWidth 8 = BitVec.allOnes 8 := by decide
  rw [BitVec.setWidth_and, hmask, BitVec.and_allOnes, byteLow, BitVec.setWidth_setWidth_of_le b (by decide),
    BitVec.setWidth_eq]

theorem crcIndex_zero (o : Orientation) (b : Byte) : crcIndex o 0x0000#16 b = b := by
  cases o with
  | high => rw [crcIndex, BitVec.zero_ushiftRight, BitVec.zero_xor, setWidth_byteLow_and]
  | low => rw [crcIndex, BitVec.zero_xor, setWidth_byteLow_and]

theorem crcUpdate_zero (o : Orientation) (v : U16) : crcUpdate o 0x0000#16 v = v := by
  cases o
  · exact BitVec.zero_xor
  · exact BitVec.xor_zero

/-- From zero the index is the byte itself, and the register after it is the entry. -/
theorem crcTbl_one_byte_zero (o : Orientation) {b : Byte} {v : U16} {s : State}
    (h : Memory.read? s.tbl b.toNat = some v) : crcTbl o [b] 0x0000#16 s = (v, s) := by
  rw [crcTbl_cons_written (v := v) [] (by rwa [crcIndex_zero]), crcUpdate_zero]
  rfl

/-! The loop of single writes (R141). -/

/-- A buffer in canonical form has no entry from 256 on. -/
theorem read_of_wfFrom_ge {m : Memory} {lo i : Nat} (h : Memory.wfFrom lo m = true) (hi : 256 ≤ i) :
    Memory.read? m i = none := by
  induction m generalizing lo with
  | nil => rfl
  | cons c m ih =>
    obtain ⟨a, v⟩ := c
    simp only [Memory.wfFrom, Bool.and_eq_true, decide_eq_true_eq] at h
    obtain ⟨⟨-, ha⟩, hm⟩ := h
    rw [read_cons, if_neg (by omega), ih hm]

/-- Two buffers in canonical form that read alike at every byte are the same list. -/
theorem wf_ext {m₁ m₂ : Memory} (h₁ : Memory.wf m₁ = true) (h₂ : Memory.wf m₂ = true)
    (h : ∀ b : Byte, Memory.read? m₁ b.toNat = Memory.read? m₂ b.toNat) : m₁ = m₂ := by
  refine wfFrom_ext m₁ m₂ 0 h₁ h₂ fun i => ?_
  by_cases hi : i < 256
  · simpa [Nat.mod_eq_of_lt hi] using h (BitVec.ofNat 8 i)
  · rw [read_of_wfFrom_ge h₁ (Nat.le_of_not_lt hi), read_of_wfFrom_ge h₂ (Nat.le_of_not_lt hi)]

/-- One round of the loop of R141: the write of entry `k` with `f k`. -/
def writeEntry (f : Byte → U16) (s : State) (k : Nat) : State := writeTbl (BitVec.ofNat 8 k) (f (BitVec.ofNat 8 k)) s

theorem wf_foldl_writeEntry (f : Byte → U16) (l : List Nat) {s : State} (h : Memory.wf s.tbl = true) :
    Memory.wf (l.foldl (writeEntry f) s).tbl = true := by
  induction l generalizing s with
  | nil => exact h
  | cons k l ih => exact ih (wf_write s.tbl (BitVec.ofNat 8 k) _ h)

/-- After the rounds of a list of indexes, an entry of the list is as `f` gives it and any other as it was. -/
theorem read_foldl_writeEntry (f : Byte → U16) {l : List Nat} (hl : ∀ k ∈ l, k < 256) (s : State) (b : Byte) :
    Memory.read? (l.foldl (writeEntry f) s).tbl b.toNat =
      if b.toNat ∈ l then some (f b) else Memory.read? s.tbl b.toNat := by
  induction l generalizing s with
  | nil => rfl
  | cons k l ih =>
    obtain ⟨hk, hl⟩ := List.forall_mem_cons.mp hl
    have hmod : k % 2 ^ 8 = k := Nat.mod_eq_of_lt hk
    rw [List.foldl_cons, ih hl, writeEntry, writeTbl_tbl, read_write, BitVec.toNat_ofNat, hmod]
    by_cases hbl : b.toNat ∈ l
    · simp [hbl]
    · by_cases hbk : b.toNat = k
      · subst hbk; simp
      · simp [hbl, hbk]

/-- The 256 single writes leave the buffer that the write of all entries leaves. -/
theorem foldl_writeEntry_eq_full (f : Byte → U16) {s : State} (h : Memory.wf s.tbl = true) :
    ((List.range 256).foldl (writeEntry f) s).tbl = Memory.full f := by
  refine wf_ext (wf_foldl_writeEntry f _ h) (wf_full f) fun b => ?_
  rw [read_foldl_writeEntry f (fun _ => List.mem_range.mp), if_pos (List.mem_range.mpr b.isLt), read_full]

end Sys2Proof.Machine

namespace Sys2Proof.Proofs

open Sys2Proof Sys2Proof.Machine

/-- Settles O24: neither the table nor `TORIENT` that `TABLE16` writes comes from the state. -/
theorem table16IsAFunctionOfThePolynomial : Obligations.Table16IsAFunctionOfThePolynomial :=
  fun p s₁ s₂ => ⟨_, _, exec_table16 p s₁, exec_table16 p s₂, rfl,
    (torient_doneTable s₁.status p).trans (torient_doneTable s₂.status p).symm⟩

/-- Settles O21: the buffer is the write of all entries. -/
theorem table16BuildsTheTable : Obligations.Table16BuildsTheTable :=
  fun p s => ⟨_, exec_table16 p s, wf_full _, fun b => by rw [read_full, tableEntry_orientOf]⟩

/-- Settles O22: the steps of the statement are rounds of `shiftHigh` and of `shiftLow`. -/
theorem tableEntriesAreEightSteps : Obligations.TableEntriesAreEightSteps := by
  refine fun p b w => ⟨fun h0 hw => ?high, fun h0 hw => ?low⟩
  case high =>
    have hend : w 8 = (shiftHigh p)^[8] (w 0) := eq_iterate_of_steps hw
    rw [hend, h0, highEntry, byteHigh]
  case low =>
    have hend : w 8 = (shiftLow p)^[8] (w 0) := eq_iterate_of_steps hw
    rw [hend, h0, lowEntry, byteLow]

/-- Settles O23: law (a) follows from law (c); the others are the lemmas above. -/
theorem tableEntryLaws : Obligations.TableEntryLaws :=
  ⟨fun p => ⟨map_zero_of_xor (highEntry_xor p), map_zero_of_xor (lowEntry_xor p)⟩,
    fun p => ⟨highEntry_one p, lowEntry_top p⟩,
    fun p a b => ⟨highEntry_xor p a b, lowEntry_xor p a b⟩,
    fun b => ⟨highEntry_zero_poly b, lowEntry_zero_poly b⟩, highEntry_eq_crcBitwise, lowEntry_reflect16⟩

/-- Settles O25: from zero the engine, in either orientation, looks up entry `b`, which `TABLE16` has written, and ends at it. -/
theorem oneByteCrcReadsTheTableEntry : Obligations.OneByteCrcReadsTheTableEntry := by
  intro p b s t h
  cases (exec_table16 p s).symm.trans h
  have hread := read_full (tableEntry (orientOf p) p) b
  exact ⟨_, by rw [exec_crctbl, crcTbl_one_byte_zero _ hread, finish_eq], hread⟩

/-- Settles O26: the loop and `TABLE16` leave canonical buffers that read alike at every byte. -/
theorem table16EqualsItsSingleWrites : Obligations.Table16EqualsItsSingleWrites := by
  intro p s t hwf h
  cases (exec_table16 p s).symm.trans h
  rw [specEntry_eq_tableEntry]
  exact foldl_writeEntry_eq_full (tableEntry (orientOf p) p) hwf

end Sys2Proof.Proofs
end

section
/-! PROOFS. The table-driven engine (spec/42_table_engine.md R155 to R161): over `TBL` when the entries it indexes are written,
over a buffer in two pieces, and as eight bit-serial steps a byte. -/

namespace Sys2Proof.Machine

theorem crcTable_cons (t : Byte → U16) (o : Orientation) (reg : U16) (b : Byte) (bs : List Byte) :
    crcTable t o reg (b :: bs) = crcTable t o (crcStep t o reg b) bs := rfl

/-! `CRCTBL` over entries that are written (R156, R284). -/

theorem tblEntry_of_read {s : State} {i : Byte} {v : U16} (h : Memory.read? s.tbl i.toNat = some v) : s.tblEntry i = v := by
  rw [State.tblEntry, h, Option.getD_some]

/-- The indexes of R284 in the model's terms: that of the first byte, and behind a written entry those of the rest. -/
theorem indexes_cons (tbl : Memory) (o : Orientation) (b : Byte) (bs : List Byte) (reg : U16) :
    Spec.indexes tbl o (b :: bs) reg = crcIndex o reg b ::
      (Memory.read? tbl (crcIndex o reg b).toNat).elim [] fun v => Spec.indexes tbl o bs (crcUpdate o reg v) := by
  cases o
  all_goals
    rw [Spec.indexes, crcIndex, byteLow]
    split
    next hread => rw [hread]; rfl
    next v hread => rw [hread]; rfl

theorem indexedWritten_nil (tbl : Memory) (o : Orientation) (reg : U16) : Spec.IndexedWritten tbl o [] reg := by
  rw [Spec.IndexedWritten, Spec.indexes]
  exact List.forall_mem_nil _

/-- The premise of R284 byte by byte. -/
theorem indexedWritten_cons {tbl : Memory} {o : Orientation} {b : Byte} {bs : List Byte} {reg : U16} :
    Spec.IndexedWritten tbl o (b :: bs) reg ↔ ∃ v, Memory.read? tbl (crcIndex o reg b).toNat = some v ∧
      Spec.IndexedWritten tbl o bs (crcUpdate o reg v) := by
  rw [Spec.IndexedWritten, indexes_cons, List.forall_mem_cons]
  cases Memory.read? tbl (crcIndex o reg b).toNat with
  | none => simp
  | some v => simp [Spec.IndexedWritten]

/-- The premise over a buffer in two pieces: the second goes on from the register after the first. -/
theorem indexedWritten_append {s : State} {o : Orientation} {a b : List Byte} {reg : U16} :
    Spec.IndexedWritten s.tbl o (a ++ b) reg ↔
      Spec.IndexedWritten s.tbl o a reg ∧ Spec.IndexedWritten s.tbl o b (crcTable s.tblEntry o reg a) := by
  induction a generalizing reg with
  | nil => exact ⟨fun h => ⟨indexedWritten_nil _ _ _, h⟩, And.right⟩
  | cons c cs ih =>
    rw [List.cons_append, indexedWritten_cons, indexedWritten_cons, crcTable_cons, crcStep]
    constructor
    · rintro ⟨v, hv, h⟩
      obtain ⟨hcs, hb⟩ := ih.mp h
      exact ⟨⟨v, hv, hcs⟩, by rwa [tblEntry_of_read hv]⟩
    · rintro ⟨⟨v, hv, hcs⟩, hb⟩
      exact ⟨v, hv, ih.mpr ⟨hcs, by rwa [tblEntry_of_read hv] at hb⟩⟩

theorem indexedWritten_of_tblWritten {s : State} (h : s.tblWritten) (o : Orientation) (data : List Byte) (reg : U16) :
    Spec.IndexedWritten s.tbl o data reg := by
  induction data generalizing reg with
  | nil => exact indexedWritten_nil _ _ _
  | cons b bs ih =>
    obtain ⟨v, hv⟩ := Option.isSome_iff_exists.mp (h (crcIndex o reg b))
    exact indexedWritten_cons.mpr ⟨v, hv, ih _⟩

/-- Over written entries the engine over `TBL` is the table engine on them, and changes nothing. -/
theorem crcTbl_of_indexedWritten {o : Orientation} {data : List Byte} {reg : U16} {s : State}
    (h : Spec.IndexedWritten s.tbl o data reg) : crcTbl o data reg s = (crcTable s.tblEntry o reg data, s) := by
  induction data generalizing reg with
  | nil => rfl
  | cons b bs ih =>
    obtain ⟨v, hv, hbs⟩ := indexedWritten_cons.mp h
    rw [crcTbl_cons_written bs hv, ih hbs, crcTable_cons, crcStep, tblEntry_of_read hv]

/-- `CRCTBL` over written entries changes only `RESULT`, `DONE` and `ERR`. -/
theorem exec_crctbl_of_indexedWritten {o : Orientation} {init : U16} {data : List Byte} {s : State}
    (h : Spec.IndexedWritten s.tbl o data init) : exec (.crctbl o init data) s =
      .next { s with result := crcTable s.tblEntry o init data, status := Spec.done s.status } := by
  rw [exec_crctbl, crcTbl_of_indexedWritten h, finish_eq, withOutcome_done_eq]

/-- `CRCTBL` on any table: beside `RESULT`, `DONE` and `ERR` only the model's count and mark change. -/
theorem exec_crctbl_frame (o : Orientation) (init : U16) (data : List Byte) (s : State) : exec (.crctbl o init data) s =
    .next { s with result := (crcTbl o data init s).1, status := Spec.done s.status,
                   freeCount := (crcTbl o data init s).2.freeCount, runMark := (crcTbl o data init s).2.runMark } := by
  rw [exec_crctbl, finish_eq, crcTbl_frame, withOutcome_done_eq]

/-- A register shifted right by 8 has a zero high byte (R157). -/
theorem extractLsb'_ushiftRight_eight (reg : U16) : (reg >>> 8).extractLsb' 8 8 = 0#8 := by
  ext i hi
  rw [BitVec.getElem_extractLsb', BitVec.getLsbD_ushiftRight, BitVec.getLsbD_of_ge _ _ (by omega), BitVec.getElem_zero]

/-! The bit-serial engines (R161). A register is split into the byte that enters the eight steps and the byte they only shift;
the steps are linear over xor. -/

/-- Eight steps or fewer against `p` only shift a byte at the bottom: no bit of it reaches the top before. -/
theorem iterate_shiftHigh_byteLow (p : U16) (c : Byte) {n : Nat} (hn : n ≤ 8) :
    (shiftHigh p)^[n] (byteLow c) = byteLow c <<< n := by
  induction n with
  | zero => simp
  | succ n ih =>
    have hbit : (byteLow c <<< n).getLsbD 15 = false := by
      rw [byteLow, BitVec.getLsbD_shiftLeft, BitVec.getLsbD_setWidth, BitVec.getLsbD_of_ge c _ (by omega)]
      simp
    rw [Function.iterate_succ_apply', ih (by omega), shiftHigh, hbit, BitVec.shiftLeft_add]
    rfl

/-- The mirror image: a byte at the top is only shifted down. -/
theorem iterate_shiftLow_byteHigh (p : U16) (c : Byte) {n : Nat} (hn : n ≤ 8) :
    (shiftLow p)^[n] (byteHigh c) = byteHigh c >>> n := by
  induction n with
  | zero => simp
  | succ n ih =>
    have hbit : (byteHigh c >>> n).getLsbD 0 = false := by
      simp [byteHigh]
      omega
    rw [Function.iterate_succ_apply', ih (by omega), shiftLow, hbit, BitVec.shiftRight_add]
    rfl

/-- The two bytes of a register. -/
theorem byteHigh_xor_byteLow (reg : U16) :
    byteHigh ((reg >>> 8).setWidth 8) ^^^ byteLow (reg.setWidth 8) = reg := by
  apply BitVec.eq_of_getLsbD_eq
  intro i hi
  by_cases hlow : i < 8
  · simp [byteHigh, byteLow, hlow, hi]
  · have h8 : i - 8 < 8 := by omega
    have hback : 8 + (i - 8) = i := by omega
    simp [byteHigh, byteLow, hlow, h8, hback, hi]

theorem byteLow_setWidth_shiftLeft (reg : U16) : byteLow (reg.setWidth 8) <<< 8 = reg <<< 8 := by
  apply BitVec.eq_of_getLsbD_eq
  intro i hi
  have h8 : i - 8 < 8 := by omega
  have h16 : i - 8 < 16 := by omega
  simp [byteLow, h8, h16]

theorem byteHigh_setWidth_ushiftRight (reg : U16) : byteHigh ((reg >>> 8).setWidth 8) >>> 8 = reg >>> 8 := by
  apply BitVec.eq_of_getLsbD_eq
  intro i hi
  by_cases hlow : i < 8
  · have h16 : 8 + i < 16 := by omega
    simp [byteHigh, hlow, hi, h16]
  · simp [byteHigh, hlow, BitVec.getLsbD_of_ge reg (8 + i) (by omega)]

/-- The mask of an index only cuts it to a byte (R159). -/
theorem setWidth_and_lowByte (w : U16) : (w &&& 0x00FF#16).setWidth 8 = w.setWidth 8 := by
  have hmask : (0x00FF#16).setWidth 8 = BitVec.allOnes 8 := by decide
  rw [BitVec.setWidth_and, hmask, BitVec.and_allOnes]

theorem setWidth_byteLow (b : Byte) : (byteLow b).setWidth 8 = b := by
  rw [← setWidth_and_lowByte, setWidth_byteLow_and]

theorem crcIndex_high (reg : U16) (b : Byte) : crcIndex .high reg b = (reg >>> 8).setWidth 8 ^^^ b := by
  rw [crcIndex, setWidth_and_lowByte, BitVec.setWidth_xor, setWidth_byteLow]

theorem crcIndex_low (reg : U16) (b : Byte) : crcIndex .low reg b = reg.setWidth 8 ^^^ b := by
  rw [crcIndex, setWidth_and_lowByte, BitVec.setWidth_xor, setWidth_byteLow]

/-- With the byte in, the top of the register is the index of a `HIGH` step (R158). -/
theorem xor_byteHigh_eq (reg : U16) (b : Byte) :
    reg ^^^ byteHigh b = byteHigh (crcIndex .high reg b) ^^^ byteLow (reg.setWidth 8) := by
  rw [crcIndex_high, byteHigh_xor, BitVec.xor_assoc, BitVec.xor_comm (byteHigh b), ← BitVec.xor_assoc,
    byteHigh_xor_byteLow]

/-- With the byte in, the bottom of the register is the index of a `LOW` step (R157). -/
theorem xor_byteLow_eq (reg : U16) (b : Byte) :
    reg ^^^ byteLow b = byteLow (crcIndex .low reg b) ^^^ byteHigh ((reg >>> 8).setWidth 8) := by
  rw [crcIndex_low, byteLow_xor, BitVec.xor_comm _ (byteHigh _), ← BitVec.xor_assoc, byteHigh_xor_byteLow]

/-- A step over a table of `HIGH` entries is a byte of the bitwise engine. -/
theorem crcStep_highEntry (p reg : U16) (b : Byte) : crcStep (highEntry p) .high reg b = bitwiseStep p reg b := by
  rw [bitwiseStep, xor_byteHigh_eq, iterate_xor (shiftHigh_xor p), iterate_shiftHigh_byteLow p _ le_rfl,
    byteLow_setWidth_shiftLeft, BitVec.xor_comm]
  rfl

/-- A step over a table of `LOW` entries is a byte of the loop of R161 (b). -/
theorem crcStep_lowEntry (p reg : U16) (b : Byte) :
    crcStep (lowEntry p) .low reg b = (shiftLow p)^[8] (reg ^^^ byteLow b) := by
  rw [xor_byteLow_eq, iterate_xor (shiftLow_xor p), iterate_shiftLow_byteHigh p _ le_rfl, byteHigh_setWidth_ushiftRight]
  rfl

theorem crcTable_highEntry (p : U16) (data : List Byte) (init : U16) :
    crcTable (highEntry p) .high init data = crcBitwise data p init false := by
  induction data generalizing init with
  | nil => rfl
  | cons b bs ih => rw [crcTable_cons, ih, crcStep_highEntry]; rfl

theorem crcTable_lowEntry (p : U16) (data : List Byte) (init : U16) :
    crcTable (lowEntry p) .low init data = Spec.lowLoop p data init := by
  induction data generalizing init with
  | nil => rfl
  | cons b bs ih => rw [crcTable_cons, ih, crcStep_lowEntry]; rfl

end Sys2Proof.Machine

namespace Sys2Proof.Proofs

open Sys2Proof Sys2Proof.Machine

/-- Settles O28: over written entries the engine over `TBL` is the table engine. -/
theorem crctblRunsTheEngineOverTbl : Obligations.CrctblRunsTheEngineOverTbl :=
  ⟨fun _ _ _ _ h => exec_crctbl_of_indexedWritten h, fun o init data _ h => indexedWritten_of_tblWritten h o data init⟩

/-- Settles O29: what the engine over `TBL` leaves, and what it has read when it leaves no mark. -/
theorem crctblCompletesOnAnyTable : Obligations.CrctblCompletesOnAnyTable := by
  intro o init data s
  refine ⟨_, _, _, exec_crctbl_frame o init data s, ?empty, fun hmark => ?unmarked⟩
  case empty => rintro rfl; exact ⟨rfl, rfl, rfl⟩
  case unmarked =>
    obtain ⟨hs, heq⟩ := crcTbl_unmarked o data init s hmark
    exact ⟨hs, by rw [heq], by rw [heq]⟩

/-- Settles O31: the first command keeps `TBL`, so the second goes on over the same entries from the register of the first. -/
theorem crctblChains : Obligations.CrctblChains := by
  refine ⟨crcTable_append, fun o init a b s h => ?_⟩
  obtain ⟨ha, hb⟩ := indexedWritten_append.mp h
  exact ⟨_, _, _, exec_crctbl_of_indexedWritten ha, exec_crctbl_of_indexedWritten hb, exec_crctbl_of_indexedWritten h,
    (crcTable_append s.tblEntry o init a b).symm⟩

/-- Settles O32: byte by byte the step of the table engine is the eight bit-serial steps. -/
theorem tableEngineEqualsBitSerialEngine : Obligations.TableEngineEqualsBitSerialEngine := by
  refine fun p t => ⟨fun ht => ?high, fun ht => ?low⟩
  case high =>
    obtain rfl : t = highEntry p := funext ht
    exact crcTable_highEntry p
  case low =>
    obtain rfl : t = lowEntry p := funext ht
    exact crcTable_lowEntry p

/-- Settles O27: each step is the next one of the loop, and a shift by 8 leaves the high byte zero. -/
theorem crcTableStepsByOrientation : Obligations.CrcTableStepsByOrientation := by
  intro t init b rest lo _
  have hone : crcTable t .low init [b] = lo ^^^ (init >>> 8) := rfl
  refine ⟨rfl, rfl, rfl, rfl, ?_⟩
  rw [hone, BitVec.extractLsb'_xor, extractLsb'_ushiftRight_eight, BitVec.xor_zero]

end Sys2Proof.Proofs
end

section
/-! PROOFS. The bitwise engine (spec/43_bitwise_engine.md R170 to R174): one byte of the loop, the reflect flag, and `HACKER16` over
a buffer in two pieces. -/

namespace Sys2Proof.Machine

/-! The engine (R170, R172). -/

theorem crcBitwise_cons (p init : U16) (r : Bool) (b : Byte) (rest : List Byte) :
    crcBitwise (b :: rest) p init r = crcBitwise rest p (bitwiseStep (effectivePoly p r) init b) r := rfl

/-- Eight steps most significant bit first, from the register with the byte in its high byte, are one byte of the engine. -/
theorem bitwiseStep_of_eightHigh {p reg : U16} {b : Byte} {w : Nat → U16} (h0 : w 0 = reg ^^^ byteHigh b)
    (hw : Spec.EightHigh p w) : bitwiseStep p reg b = w 8 := by
  have hend : w 8 = (shiftHigh p)^[8] (w 0) := eq_iterate_of_steps hw
  rw [hend, h0, bitwiseStep]

/-- The initial value and the byte enter a step only together (R174 (d)). -/
theorem bitwiseStep_congr {i₁ i₂ : U16} {b₁ b₂ : Byte} (h : i₁ ^^^ byteHigh b₁ = i₂ ^^^ byteHigh b₂) (p : U16) :
    bitwiseStep p i₁ b₁ = bitwiseStep p i₂ b₂ :=
  congrArg (Nat.iterate (shiftHigh p) 8) h

theorem crcBitwise_reflect (data : List Byte) (q init : U16) :
    crcBitwise data q init true = crcBitwise data (reflect16 q) init false := rfl

/-! The command (R171, R173). -/

/-- `HACKER16` as the statements write its next state. -/
theorem exec_hacker16 (p init x : U16) (r : Bool) (data : List Byte) (s : State) :
    exec (.hacker16 p init x r data) s =
      .next { s with result := crcBitwise data p init r ^^^ x, status := Spec.done s.status } := by
  rw [← withOutcome_done_eq]
  exact finish_eq (crcBitwise data p init r ^^^ x) s

end Sys2Proof.Machine

namespace Sys2Proof.Proofs

open Sys2Proof Sys2Proof.Machine

/-- Settles O33: the command completes with the value of the engine. -/
theorem hacker16RunsTheBitwiseEngine : Obligations.Hacker16RunsTheBitwiseEngine := exec_hacker16

/-- Settles O35: the flag enters the next state only through the polynomial of the engine. -/
theorem reflectFlagOnlyReflectsThePolynomial : Obligations.ReflectFlagOnlyReflectsThePolynomial := by
  intro q init x data s
  rw [exec_hacker16, exec_hacker16, crcBitwise_reflect]

/-- Settles O34: the eight steps of the statement are the engine's first byte, against the polynomial in effect. -/
theorem bitwiseEngineIsItsLoop : Obligations.BitwiseEngineIsItsLoop :=
  fun p init r b rest _ => ⟨rfl, fun h0 hw => by
    rw [crcBitwise_cons, effectivePoly, bitwiseStep_of_eightHigh h0 hw]⟩

/-- Settles O36: for `HACKER16` in (b), the xorout cancels in the register that the first command leaves. -/
theorem bitwiseEngineLaws : Obligations.BitwiseEngineLaws := by
  refine ⟨fun p init data => (crcTable_highEntry p data init).symm, crcBitwise_append, ?chain,
    fun p b => (highEntry_eq_crcBitwise p b).symm, fun p _ _ r _ _ h => bitwiseStep_congr h (effectivePoly p r)⟩
  case chain =>
    intro p init x r a b s t h
    cases (exec_hacker16 p init x r a s).symm.trans h
    refine ⟨_, _, exec_hacker16 .., exec_hacker16 .., ?_⟩
    have hcancel : crcBitwise a p init r ^^^ x ^^^ x = crcBitwise a p init r := by
      rw [BitVec.xor_assoc, BitVec.xor_self, BitVec.xor_zero]
    simp only [hcancel, crcBitwise_append]

end Sys2Proof.Proofs
end

section
/-! PROOFS. The presets (spec/44_presets.md R185 to R204): what `runPreset` does on a row that names a table and on the empty
buffer, the eleven rows over a buffer in two pieces, and `TABLE16` with `CRCTBL` in place of a preset table. -/

namespace Sys2Proof.Machine

/-! The common semantics (R187), row by row of the catalog. -/

/-- A preset as the statements write its next state. -/
theorem runPreset_done (row : CatRow) (init : Option U16) (data : List Byte) (s : State) :
    runPreset row init data s =
      .next { s with result := runEngine row.engine data (init.getD row.init) ^^^ row.xorout,
                     status := Spec.done s.status } := by
  rw [runPreset_eq, withOutcome_done_eq, initEff]

/-- A row that names a table runs the table engine over the entries of R148. -/
theorem runPreset_table (row : CatRow) {p : U16} {o : Orientation} (hengine : row.engine = .table p o)
    (init : Option U16) (data : List Byte) (s : State) :
    runPreset row init data s =
      .next { s with result := crcTable (Spec.entry o p) o (init.getD row.init) data ^^^ row.xorout,
                     status := Spec.done s.status } := by
  rw [runPreset_done, hengine, runEngine, specEntry_eq_tableEntry]

/-- On a `HIGH` table a preset is the bitwise engine (R174 (a)). -/
theorem runPreset_high_eq_hacker16 (row : CatRow) {p : U16} (hengine : row.engine = .table p .high)
    (init : Option U16) (data : List Byte) (s : State) :
    runPreset row init data s = exec (.hacker16 p (init.getD row.init) row.xorout false data) s := by
  have hentry : Spec.entry .high p = highEntry p := rfl
  rw [runPreset_table row hengine, hentry, crcTable_highEntry, exec_hacker16]

/-- Over no byte every engine, the open `SICK_CORE` too (R8), leaves the initial value. -/
@[simp] theorem runEngine_nil (e : PresetEngine) (n : U16) : runEngine e [] n = n := by
  cases e <;> rfl

theorem runPreset_nil (row : CatRow) (init : Option U16) (s : State) :
    ∃ t, runPreset row init [] s = .next t ∧ t.result = init.getD row.init ^^^ row.xorout :=
  ⟨_, runPreset_done row init [] s, by rw [runEngine_nil]⟩

/-! The orientation that bit 15 of a polynomial chooses (R140), as the statements write it. -/

theorem orientOf_eq_ite (p : U16) : orientOf p = if p.getLsbD 15 = true then .low else .high := by
  rw [orientOf]
  cases p.getLsbD 15 <;> rfl

theorem specEntry_orientOf (p : U16) :
    Spec.entry (orientOf p) p = if p.getLsbD 15 = true then lowEntry p else highEntry p := by
  rw [orientOf_eq_ite]
  split <;> rfl

/-! The xorout (R204). -/

/-- The xorouts `0x0000` and `0xFFFF` of the catalog give complements. -/
theorem xor_ones_eq_not_xor_zero (r : U16) : r ^^^ 0xFFFF#16 = ~~~ (r ^^^ 0x0000#16) := by
  rw [BitVec.xor_zero]
  exact BitVec.xor_allOnes

/-! The eleven rows that name a table. -/

/-- The value of a row from an effective initial value (R187). -/
def presetValue (pr : Spec.Preset) (n : U16) (data : List Byte) : U16 :=
  crcTable (Spec.entry pr.orient pr.poly) pr.orient n data ^^^ pr.xorout

/-- Each row of the statements is a row of the catalog, or `IBM` with `PS = 0`, which is one. -/
theorem exec_preset : ∀ pr ∈ Spec.presets, ∀ (init : Option U16) (data : List Byte) (s : State),
    exec (pr.cmd init data) s =
      .next { s with result := presetValue pr (init.getD pr.init) data, status := Spec.done s.status } := by
  simp only [Spec.presets, List.forall_mem_cons]
  exact ⟨runPreset_table catModbus rfl, runPreset_table catUsb16 rfl, runPreset_table catIbm rfl,
    runPreset_table catXmodem rfl, runPreset_table catCcittFalse rfl, runPreset_table catKermit rfl,
    runPreset_table catMcrf4xx rfl, runPreset_table catX25 rfl, runPreset_table catDnp rfl,
    runPreset_table catMaxim16 rfl, runPreset_table catDect rfl, List.forall_mem_nil _⟩

theorem presetValue_nil (pr : Spec.Preset) (n : U16) : presetValue pr n [] = n ^^^ pr.xorout := rfl

/-- With its xorout undone, the value over the first piece is the register the second goes on from (R160). -/
theorem presetValue_append (pr : Spec.Preset) (n : U16) (a b : List Byte) :
    presetValue pr (presetValue pr n a ^^^ pr.xorout) b = presetValue pr n (a ++ b) := by
  simp only [presetValue, xor_cancel_right, crcTable_append]

/-- The catalog's columns agree with the table generator (R189). -/
theorem presets_columns_agree : ∀ pr ∈ Spec.presets, orientOf pr.poly = pr.orient ∧
    (pr.orient = .low → pr.poly = reflect16 pr.normal) ∧ (pr.orient = .high → pr.poly = pr.normal) := by
  decide

/-! `CRCTBL` over the table that `TABLE16` leaves. -/

theorem tblWritten_of_full {s : State} {f : Byte → U16} (h : s.tbl = Memory.full f) : s.tblWritten := by
  intro i
  rw [h, read_full, Option.isSome_some]

theorem tblEntry_of_full {s : State} {f : Byte → U16} (h : s.tbl = Memory.full f) : s.tblEntry = f :=
  funext fun i => tblEntry_of_read (h ▸ read_full f i)

theorem exec_crctbl_of_full {s : State} {f : Byte → U16} (h : s.tbl = Memory.full f) (o : Orientation) (init : U16)
    (data : List Byte) : exec (.crctbl o init data) s =
      .next { s with result := crcTable f o init data, status := Spec.done s.status } := by
  rw [exec_crctbl_of_indexedWritten (indexedWritten_of_tblWritten (tblWritten_of_full h) o data init),
    tblEntry_of_full h]

end Sys2Proof.Machine

namespace Sys2Proof.Proofs

open Sys2Proof Sys2Proof.Machine

/-- Settles O37: each row is one of the catalog. -/
theorem presetsComputeTheirCatalogRow : Obligations.PresetsComputeTheirCatalogRow := exec_preset

/-- Settles O38: the polynomial is the open `IBM_ALT`, in the row of `IBM` with `PS = 1`. -/
theorem ibmAltUsesOneOpenPolynomial : Obligations.IbmAltUsesOneOpenPolynomial := by
  refine ⟨Config.ibmAlt, fun init data s => ?_⟩
  rw [← specEntry_orientOf, ← orientOf_eq_ite, ← BitVec.xor_zero (x := crcTable _ _ _ _)]
  exact runPreset_table (ibmRow true) rfl init data s

/-- Settles O39: the function is `SICK_CORE`, in the row of `SICK`. -/
theorem sickComputesOneOpenFunction : Obligations.SickComputesOneOpenFunction := by
  refine ⟨sickCore, fun _ => rfl, fun init data s => ?_⟩
  rw [← BitVec.xor_zero (x := sickCore _ _)]
  exact runPreset_done catSick init data s

/-- Settles O40: every engine leaves the initial value, and the defaults are those of the catalog's rows. -/
theorem emptyBufferGivesTheInitialValue : Obligations.EmptyBufferGivesTheInitialValue := by
  refine ⟨fun pr hpr init s => ⟨_, exec_preset pr hpr init [] s, presetValue_nil pr _⟩, fun init s => ?ibmAlt,
    fun init s => ?sick, ?ones, ?zeros⟩
  case ibmAlt =>
    rw [← BitVec.xor_zero (x := init.getD _)]
    exact runPreset_nil (ibmRow true) init s
  case sick =>
    rw [← BitVec.xor_zero (x := init.getD _)]
    exact runPreset_nil catSick init s
  case ones =>
    simp only [List.forall_mem_cons]
    exact ⟨runPreset_nil catModbus none, runPreset_nil catCcittFalse none, runPreset_nil catMcrf4xx none,
      runPreset_nil catDnp none, runPreset_nil catMaxim16 none, List.forall_mem_nil _⟩
  case zeros =>
    simp only [List.forall_mem_cons]
    exact ⟨runPreset_nil catUsb16 none, runPreset_nil catIbm none, runPreset_nil (ibmRow true) none,
      runPreset_nil catXmodem none, runPreset_nil catKermit none, runPreset_nil catX25 none,
      runPreset_nil catSick none, runPreset_nil catDect none, List.forall_mem_nil _⟩

/-- Settles O41: the override is the register that the first command left before its xorout. -/
theorem presetsChainWhenTheXoroutIsUndone : Obligations.PresetsChainWhenTheXoroutIsUndone := by
  intro pr hpr init a b s t h
  cases (exec_preset pr hpr init a s).symm.trans h
  exact ⟨_, _, exec_preset pr hpr _ b _, exec_preset pr hpr init (a ++ b) s, presetValue_append pr _ a b⟩

/-- Settles O42: with the override the rows of a group differ in their xorout only. -/
theorem presetsThatShareATableAgree : Obligations.PresetsThatShareATableAgree := fun v data s =>
  ⟨_, _, _, _, _, _, _, _, _,
    runPreset_table catModbus rfl (some v) data s, runPreset_table catUsb16 rfl (some v) data s,
    runPreset_table catIbm rfl (some v) data s, runPreset_table catMaxim16 rfl (some v) data s,
    runPreset_table catKermit rfl (some v) data s, runPreset_table catMcrf4xx rfl (some v) data s,
    runPreset_table catX25 rfl (some v) data s, runPreset_table catXmodem rfl (some v) data s,
    runPreset_table catCcittFalse rfl (some v) data s,
    rfl, xor_ones_eq_not_xor_zero _, xor_ones_eq_not_xor_zero _, rfl, xor_ones_eq_not_xor_zero _, rfl⟩

/-- Settles O43: both rows name the `HIGH` table of `0x1021`. -/
theorem xmodemAndCcittFalseAreTheBitwiseEngine : Obligations.XmodemAndCcittFalseAreTheBitwiseEngine :=
  fun data s => ⟨runPreset_high_eq_hacker16 catXmodem rfl none data s,
    runPreset_high_eq_hacker16 catCcittFalse rfl none data s⟩

/-- Settles O44: `TABLE16` leaves the preset table in `TBL`, and `CRCTBL` is the engine over it. -/
theorem tableGeneratorReproducesThePresets : Obligations.TableGeneratorReproducesThePresets := by
  intro pr hpr
  obtain ⟨horient, hlow, hhigh⟩ := presets_columns_agree pr hpr
  refine ⟨horient, hlow, hhigh, fun init data s => ?_⟩
  have htable : exec (.table16 pr.poly) s =
      .next { s with tbl := Memory.full (Spec.entry pr.orient pr.poly),
                     status := Spec.doneTable s.status pr.poly } := by
    rw [exec_table16, horient, specEntry_eq_tableEntry]
  exact ⟨_, _, _, htable, by rw [torient_doneTable]; exact horient, read_full _, exec_crctbl_of_full rfl _ init data,
    exec_preset pr hpr (some init) data s, rfl⟩

end Sys2Proof.Proofs
end

section
/-! PROOFS. `INET` (spec/45_internet.md R220 to R224): its accumulator is the sum of the big-endian words, a trailing zero byte adds
nothing to it, and the complement of a fold completes a sum to a multiple of 65535. -/

namespace Sys2Proof.Machine

/-! The accumulator (R220) and the words that the statements sum. -/

theorem wordSum_eq_sum_words (data : List Byte) : wordSum data = (Spec.words data).sum := by
  induction data using Spec.words.induct with
  | case1 => rfl
  | case2 b => rw [wordSum, Spec.words, List.sum_singleton]
  | case3 hi lo rest ih => rw [wordSum, Spec.words, List.sum_cons, ih]

theorem checksumInternet_eq (data : List Byte) : checksumInternet data = ~~~ (fold16 (Spec.words data).sum) := by
  rw [checksumInternet, wordSum_eq_sum_words]
  exact BitVec.xor_allOnes

theorem checksumInternet_congr {a b : List Byte} (h : (Spec.words a).sum = (Spec.words b).sum) :
    checksumInternet a = checksumInternet b := by
  rw [checksumInternet_eq, checksumInternet_eq, h]

/-- After a buffer of even length the pairing of the bytes begins anew. -/
theorem words_append {a : List Byte} (heven : a.length % 2 = 0) (b : List Byte) :
    Spec.words (a ++ b) = Spec.words a ++ Spec.words b := by
  induction a using Spec.words.induct with
  | case1 => rfl
  | case2 x => exact absurd heven Nat.one_ne_zero
  | case3 hi lo rest ih =>
    have hrest : rest.length % 2 = 0 := (Nat.add_mod_right _ 2).symm.trans heven
    simp only [List.cons_append, Spec.words, ih hrest]

/-! The words by their index in the buffer. -/

/-- Word `j` of R220. -/
def wordAt (data : List Byte) (j : Nat) : Nat :=
  (data.getD (2 * j) 0#8).toNat * 256 + (data.getD (2 * j + 1) 0#8).toNat

/-- What the last byte of an odd buffer adds in R220. -/
def oddTail (data : List Byte) : Nat :=
  if data.length % 2 = 1 then (data.getD (data.length - 1) 0#8).toNat * 256 else 0

/-- Behind the first pair the indices go up by one word. -/
theorem map_wordAt_cons_cons (hi lo : Byte) (rest : List Byte) :
    (List.range ((hi :: lo :: rest).length / 2)).map (wordAt (hi :: lo :: rest)) =
      (hi.toNat * 256 + lo.toNat) :: (List.range (rest.length / 2)).map (wordAt rest) := by
  have hlen : (hi :: lo :: rest).length / 2 = rest.length / 2 + 1 := Nat.add_div_right _ Nat.two_pos
  rw [hlen, List.range_succ_eq_map, List.map_cons, List.map_map]
  rfl

theorem oddTail_cons_cons (hi lo : Byte) (rest : List Byte) : oddTail (hi :: lo :: rest) = oddTail rest := by
  have hparity : (hi :: lo :: rest).length % 2 = rest.length % 2 := Nat.add_mod_right _ 2
  rw [oddTail, oddTail, hparity]
  cases rest with
  | nil => simp
  | cons b rest => rfl

theorem sum_words_eq_sum_wordAt (data : List Byte) :
    (Spec.words data).sum = ((List.range (data.length / 2)).map (wordAt data)).sum + oddTail data := by
  induction data using Spec.words.induct with
  | case1 => rfl
  | case2 b => simp [Spec.words, oddTail]
  | case3 hi lo rest ih =>
    rw [Spec.words, map_wordAt_cons_cons, oddTail_cons_cons, List.sum_cons, List.sum_cons, ih,
      ← Nat.add_assoc]

/-! Trailing zeros (R223). -/

/-- The zero is the low byte of an odd tail, or the high byte of one more word. -/
theorem sum_words_append_zero (data : List Byte) : (Spec.words (data ++ [0x00#8])).sum = (Spec.words data).sum := by
  induction data using Spec.words.induct with
  | case1 => rfl
  | case2 b => simp [Spec.words]
  | case3 hi lo rest ih => simp only [List.cons_append, Spec.words, List.sum_cons, ih]

theorem checksumInternet_append_zero (data : List Byte) :
    checksumInternet (data ++ [0x00#8]) = checksumInternet data :=
  checksumInternet_congr (sum_words_append_zero data)

theorem checksumInternet_append_zeros (data : List Byte) (n : Nat) :
    checksumInternet (data ++ List.replicate n 0x00#8) = checksumInternet data := by
  induction n with
  | zero => rw [List.replicate_zero, List.append_nil]
  | succ n ih => rw [List.replicate_succ', ← List.append_assoc, checksumInternet_append_zero, ih]

/-! The verification form (R224 (c)). -/

/-- The two bytes of a value, high byte first, are one word. -/
theorem words_bytes (c : U16) : Spec.words [c.extractLsb' 8 8, c.extractLsb' 0 8] = [c.toNat] := by
  have hword : (c.extractLsb' 8 8).toNat * 256 + (c.extractLsb' 0 8).toNat = c.toNat := by
    simp only [BitVec.extractLsb'_toNat, Nat.shiftRight_eq_div_pow]
    omega
  rw [Spec.words, hword, Spec.words]

/-- The complement of a fold completes the sum to a positive multiple of 65535, and such a number folds to `0xFFFF`. -/
theorem fold16_add_not_fold16 (n : Nat) : fold16 (n + (~~~ fold16 n).toNat) = 0xFFFF#16 := by
  have hmod : (n + (~~~ fold16 n).toNat) % 65535 = 0 := by
    have hfold := fold16_toNat_mod n
    rw [BitVec.toNat_not]
    omega
  have hpos : 0 < n + (~~~ fold16 n).toNat := by
    rcases Nat.eq_zero_or_pos n with rfl | hn
    · decide
    · exact Nat.add_pos_left hn _
  apply BitVec.eq_of_toNat_eq
  rw [fold16_toNat_of_pos hpos, BitVec.toNat_ofNat]
  omega

theorem checksumInternet_append_checksum {d : List Byte} (heven : d.length % 2 = 0) :
    checksumInternet (d ++ [(checksumInternet d).extractLsb' 8 8, (checksumInternet d).extractLsb' 0 8]) = 0x0000#16 := by
  rw [checksumInternet_eq, words_append heven, words_bytes, List.sum_append, List.sum_singleton, checksumInternet_eq,
    fold16_add_not_fold16]
  rfl

/-! The command (R221). -/

/-- `INET` as the statements write its next state. -/
theorem exec_inet (data : List Byte) (s : State) :
    exec (.inet data) s = .next { s with result := checksumInternet data, status := Spec.done s.status } := by
  rw [← withOutcome_done_eq]
  exact finish_eq (checksumInternet data) s

end Sys2Proof.Machine

namespace Sys2Proof.Proofs

open Sys2Proof Sys2Proof.Machine

/-- Settles O45: the checksum that the command writes is the complement of the folded sum of the words. -/
theorem inetWritesTheComplementOfTheFoldedSum : Obligations.InetWritesTheComplementOfTheFoldedSum := by
  intro data s
  rw [exec_inet, checksumInternet_eq]

/-- Settles O47: the sum over the pairs of bytes is the sum over the indices and the odd tail. -/
theorem internetSumIsOverBigEndianWords : Obligations.InternetSumIsOverBigEndianWords := by
  intro data
  rw [checksumInternet_eq, sum_words_eq_sum_wordAt]
  rfl

/-- Settles O48: one zero byte adds nothing to the sum; a leading one makes the high byte `0x01` a low byte. -/
theorem trailingZerosAreNeutralForInet : Obligations.TrailingZerosAreNeutralForInet :=
  ⟨checksumInternet_append_zeros,
    fun data s => ⟨_, _, exec_inet data s, exec_inet _ s, (checksumInternet_append_zero data).symm⟩,
    [0x01#8], by decide⟩

/-- Settles O49: the checksum depends on the sum of the words only, and a fold keeps that sum modulo 65535. -/
theorem internetChecksumLaws : Obligations.InternetChecksumLaws := by
  refine ⟨fun _ _ hperm => checksumInternet_congr hperm.sum_eq, fun d => ?mod65535,
    fun _ heven => checksumInternet_append_checksum heven⟩
  case mod65535 => rw [checksumInternet_eq, BitVec.not_not, fold16_toNat_mod]

end Sys2Proof.Proofs
end

section
/-! PROOFS. `FLETCHER16` (spec/46_fletcher16.md R235 to R238): the loop adds a byte at the end of the buffer, its sums are the plain
and the weighted sum of the bytes modulo 255, and so both bytes of `RESULT` are these residues. -/

namespace Sys2Proof.Machine

/-! The loop (R235). -/

theorem fletcherSums_append_singleton (data : List Byte) (b : Byte) :
    fletcherSums (data ++ [b]) = fletcherStep (fletcherSums data) b := by
  simp [fletcherSums]

theorem fletcherSums_append_cons (a : List Byte) (x : Byte) (b : List Byte) :
    fletcherSums (a ++ x :: b) = b.foldl fletcherStep (fletcherStep (fletcherSums a) x) := by
  simp [fletcherSums]

/-- 255 is 0 modulo 255. -/
theorem fletcherStep_ff (sums : Nat × Nat) : fletcherStep sums 0xFF#8 = fletcherStep sums 0x00#8 := by
  have h : (sums.1 + (0xFF#8 : Byte).toNat) % 255 = (sums.1 + (0x00#8 : Byte).toNat) % 255 := Nat.add_mod_right _ 255
  simp only [fletcherStep, h]

/-! The closed forms (R238 (b)). -/

/-- The sum of `(LEN - k) * DATA[k]` over the buffer. -/
def fletcherWeighted (data : List Byte) : Nat :=
  ((List.range data.length).map (fun k => (data.length - k) * (data.getD k 0#8).toNat)).sum

theorem fletcherWeighted_cons (b : Byte) (rest : List Byte) :
    fletcherWeighted (b :: rest) = (rest.length + 1) * b.toNat + fletcherWeighted rest := by
  simp [fletcherWeighted, List.range_succ_eq_map, Function.comp_def]

/-- One byte more raises every weight by one, and enters with weight 1: the weighted sum grows by the new plain sum. -/
theorem fletcherWeighted_append_singleton (data : List Byte) (b : Byte) :
    fletcherWeighted (data ++ [b]) = fletcherWeighted data + ((data ++ [b]).map BitVec.toNat).sum := by
  induction data with
  | nil => simp [fletcherWeighted]
  | cons a rest ih =>
    rw [List.cons_append, fletcherWeighted_cons, ih, fletcherWeighted_cons, List.map_cons, List.sum_cons,
      List.length_append, List.length_singleton]
    ring

theorem fletcherSums_fst (data : List Byte) : (fletcherSums data).1 = (data.map BitVec.toNat).sum % 255 := by
  induction data using List.reverseRecOn with
  | nil => rfl
  | append_singleton data b ih =>
    rw [fletcherSums_append_singleton, fletcherStep, ih, Nat.mod_add_mod, List.map_append, List.sum_append,
      List.map_singleton, List.sum_singleton]

theorem fletcherSums_snd (data : List Byte) : (fletcherSums data).2 = fletcherWeighted data % 255 := by
  induction data using List.reverseRecOn with
  | nil => rfl
  | append_singleton data b ih =>
    have hstep : (fletcherSums (data ++ [b])).2 = ((fletcherSums data).2 + (fletcherSums (data ++ [b])).1) % 255 := by
      rw [fletcherSums_append_singleton, fletcherStep]
    rw [hstep, ih, fletcherSums_fst, ← Nat.add_mod, fletcherWeighted_append_singleton]

/-! The bounds (R238 (a)), and the two bytes of the result. -/

theorem fletcherSums_fst_lt (data : List Byte) : (fletcherSums data).1 < 255 := by
  rw [fletcherSums_fst]
  exact Nat.mod_lt _ (by decide)

theorem fletcherSums_snd_lt (data : List Byte) : (fletcherSums data).2 < 255 := by
  rw [fletcherSums_snd]
  exact Nat.mod_lt _ (by decide)

theorem fletcher16_toNat (data : List Byte) :
    (fletcher16 data).toNat = (fletcherSums data).2 * 256 + (fletcherSums data).1 := by
  have h1 := fletcherSums_fst_lt data
  have h2 := fletcherSums_snd_lt data
  rw [fletcher16, BitVec.toNat_ofNat]
  omega

theorem fletcher16_lowByte (data : List Byte) :
    ((fletcher16 data).extractLsb' 0 8).toNat = (fletcherSums data).1 := by
  have h1 := fletcherSums_fst_lt data
  rw [BitVec.extractLsb'_toNat, fletcher16_toNat, Nat.shiftRight_zero]
  omega

theorem fletcher16_highByte (data : List Byte) :
    ((fletcher16 data).extractLsb' 8 8).toNat = (fletcherSums data).2 := by
  have h1 := fletcherSums_fst_lt data
  have h2 := fletcherSums_snd_lt data
  rw [BitVec.extractLsb'_toNat, fletcher16_toNat, Nat.shiftRight_eq_div_pow]
  omega

/-! The command (R236). -/

/-- `FLETCHER16` as the statements write its next state. -/
theorem exec_fletcher16 (data : List Byte) (s : State) :
    exec (.fletcher16 data) s = .next { s with result := fletcher16 data, status := Spec.done s.status } := by
  rw [← withOutcome_done_eq]
  exact finish_eq (fletcher16 data) s

end Sys2Proof.Machine

namespace Sys2Proof.Proofs

open Sys2Proof Sys2Proof.Machine

/-- Settles O50: the two bytes of the result are the sums of the loop, and these have R238's closed form. -/
theorem fletcher16WritesTheTwoSums : Obligations.Fletcher16WritesTheTwoSums := fun data s =>
  ⟨_, exec_fletcher16 data s, rfl, (fletcher16_lowByte data).trans (fletcherSums_fst data),
    (fletcher16_highByte data).trans (fletcherSums_snd data)⟩

/-- Settles O51: the last byte of the buffer is the last step of the loop, and the sums fit their bytes of the result. -/
theorem fletcherSumsAreTheirLoop : Obligations.FletcherSumsAreTheirLoop := by
  refine ⟨rfl, fun data b => ?_, fletcher16_toNat⟩
  rw [fletcherSums_append_singleton]
  exact ⟨rfl, rfl⟩

/-- Settles O52: the sums are residues modulo 255, a plain sum does not see order, and the step at a byte `0xFF` is the one at
`0x00`. -/
theorem fletcherLaws : Obligations.FletcherLaws := by
  refine ⟨fun data => ⟨Nat.le_of_lt_succ (fletcherSums_fst_lt data), Nat.le_of_lt_succ (fletcherSums_snd_lt data)⟩,
    fun d₁ d₂ hperm => ?order, fun a b => ?ffIsZero⟩
  case order => rw [fletcherSums_fst, fletcherSums_fst, (hperm.map BitVec.toNat).sum_eq]
  case ffIsZero => rw [fletcher16, fletcher16, fletcherSums_append_cons, fletcherSums_append_cons, fletcherStep_ff]

end Sys2Proof.Proofs
end

section
/-! PROOFS. Exceptions (spec/60_exceptions.md R250 to R256) and reset and hazards (spec/70_reset_and_hazards.md R280 to R297): no
step stops, the decoder's outcomes by the rows of the opcode map, and what a command's value depends on. -/

namespace Sys2Proof

/-! The opcode map (R100), row by row. -/

theorem mem_opAll (o : Op) : o ∈ Op.all := by cases o <;> decide

/-- The row of R100 as the decoder has it. -/
def Op.row (o : Op) : Spec.Row := ⟨o.code, o.matchWord, o.format.mask, !o.format.takesData, o.instr⟩

/-- `OR` as the statements read it (R20, R95). -/
theorem ofBit_eq_ite (b : Bool) : Orientation.ofBit b = if b = true then .low else .high := by cases b <;> rfl

theorem rows_eq_map_row : Spec.rows = Op.all.map Op.row := by
  have hcrctbl : (fun cw data => Instr.crctbl (if cw.getLsbD 9 then .low else .high) (cw.extractLsb' 32 16) data) =
      Op.instr .crctbl := by
    funext cw data
    rw [Op.instr, ofBit_eq_ite]
    rfl
  rw [Spec.rows, hcrctbl]
  rfl

end Sys2Proof

namespace Sys2Proof.Machine

/-! No step stops (R250). -/

/-- The command port is the one register number whose write does not go on (R42). -/
theorem hWrReg_next {n : Nat} (h2 : n ≠ 2) (v : U16) (s : State) : ∃ t, hWrReg n v s = .next t := by
  by_cases hout : n < 0x100 ∨ 0x1FF < n
  · exact ⟨s, hWrReg_ignored h2 hout v s⟩
  · obtain ⟨i, rfl⟩ : ∃ i : Byte, n = 0x100 + i.toNat :=
      ⟨BitVec.ofNat 8 (n - 0x100), by rw [BitVec.toNat_ofNat]; omega⟩
    exact ⟨_, hWrReg_tbl i v s⟩

/-- A host action goes on, but for the bare write of the command port (log 11). -/
theorem hostAct_next_or_refused (a : HostAction) (s : State) : (∃ t, hostAct a s = .next t) ∨
    (hostAct a s = .refused .partialCommandWrite ∧ ∃ v, a = .wrReg 2 v) := by
  cases a with
  | issue cw data => exact .inl (hIssue_next cw data s)
  | wrReg n v =>
    by_cases h2 : n = 2
    · subst h2
      exact .inr ⟨rfl, v, rfl⟩
    · exact .inl (hWrReg_next h2 v s)
  | _ => exact .inl ⟨_, rfl⟩

theorem step_of_idle {s : State} (h : s.pending = []) : step s = .next s := by
  rw [step, h]

/-! What a `CRCTBL` depends on (R297). -/

theorem indexes_cons_of_read {tbl : Memory} {o : Orientation} {b : Byte} {reg v : U16} (bs : List Byte)
    (h : Memory.read? tbl (crcIndex o reg b).toNat = some v) :
    Spec.indexes tbl o (b :: bs) reg = crcIndex o reg b :: Spec.indexes tbl o bs (crcUpdate o reg v) := by
  rw [indexes_cons, h]
  rfl

/-- Over two buffers that agree on the entries it indexes, written ones, the engine ends at one register. -/
theorem crcTbl_congr {o : Orientation} {data : List Byte} {reg : U16} {s₁ s₂ : State}
    (hw : Spec.IndexedWritten s₁.tbl o data reg)
    (hagree : ∀ j ∈ Spec.indexes s₁.tbl o data reg, Memory.read? s₂.tbl j.toNat = Memory.read? s₁.tbl j.toNat) :
    (crcTbl o data reg s₁).1 = (crcTbl o data reg s₂).1 := by
  induction data generalizing reg with
  | nil => rfl
  | cons b bs ih =>
    obtain ⟨v, hv, hbs⟩ := indexedWritten_cons.mp hw
    rw [indexes_cons_of_read bs hv, List.forall_mem_cons] at hagree
    obtain ⟨hb, hrest⟩ := hagree
    rw [crcTbl_cons_written bs hv, crcTbl_cons_written bs (hb.trans hv), ih hbs hrest]

/-! The count and the mark over a written buffer (R284). -/

/-- The run took no free value and no mark. -/
structure SameRun (s t : State) : Prop where
  runMark : t.runMark = s.runMark
  freeCount : t.freeCount = s.freeCount

theorem exec_sameRun {i : Instr} {s t : State} (hw : s.tblWritten) (h : exec i s = .next t) : SameRun s t := by
  obtain ⟨p, -, h'⟩ | ⟨o, init, data, -, h'⟩ | ⟨v, -, -, h'⟩ := exec_cases i s
  · cases h.symm.trans h'
    exact ⟨rfl, rfl⟩
  · rw [crcTbl_written o data init s hw] at h'
    cases h.symm.trans h'
    exact ⟨rfl, rfl⟩
  · cases h.symm.trans (h' s)
    exact ⟨rfl, rfl⟩

theorem hIssue_sameRun {cw : CmdWord} {data : List Byte} {s t : State} (hw : s.tblWritten)
    (h : hIssue cw data s = .next t) : SameRun s t := by
  obtain ⟨i, -, h'⟩ | ⟨e, -, h'⟩ := hIssue_cases cw data s
  · exact exec_sameRun hw (h'.symm.trans h)
  · cases h.symm.trans h'
    exact ⟨rfl, rfl⟩

theorem hRdTbl_sameRun (i : Byte) {s : State} (hw : s.tblWritten) : SameRun s (hRdTbl i s) := by
  rw [hRdTbl, readTbl_written i s hw]
  exact ⟨rfl, rfl⟩

theorem hRdReg_sameRun (n : Nat) {s : State} (hw : s.tblWritten) : SameRun s (hRdReg n s) := by
  unfold hRdReg
  split
  case h_4 i _ => exact hRdTbl_sameRun i hw
  all_goals exact ⟨rfl, rfl⟩

theorem hostAct_sameRun {a : HostAction} {s t : State} (hw : s.tblWritten) (h : hostAct a s = .next t) :
    SameRun s t := by
  cases a with
  | issue cw data => exact hIssue_sameRun hw h
  | rdTbl i => cases h; exact hRdTbl_sameRun i hw
  | rdReg n => cases h; exact hRdReg_sameRun n hw
  | wrReg n v => obtain rfl | ⟨i, -, rfl⟩ := hWrReg_cases h <;> exact ⟨rfl, rfl⟩
  | _ => cases h; exact ⟨rfl, rfl⟩

theorem step_sameRun {s t : State} (hw : s.tblWritten) (h : step s = .next t) : SameRun s t := by
  obtain ⟨-, rfl⟩ | ⟨a, rest, -, h⟩ := step_cases h
  · exact ⟨rfl, rfl⟩
  · have same : SameRun (takeAction rest s) t := hostAct_sameRun hw h
    exact ⟨same.runMark, same.freeCount⟩

/-- Whether every entry is written is a matter of the buffer alone. -/
theorem tblWritten_congr {s t : State} (h : t.tbl = s.tbl) (hw : s.tblWritten) : t.tblWritten := by
  rwa [State.tblWritten, h]

/-- Only a reset takes an entry away (R36). -/
theorem step_tblWritten {s t : State} (hw : s.tblWritten) (hreset : s.pending.head? ≠ some .reset)
    (h : step s = .next t) : t.tblWritten := by
  cases unitEvent_of_step h with
  | quiet same => exact tblWritten_congr same.tbl hw
  | reset head => exact absurd head hreset
  | wrote i v _ _ _ htbl => exact tblWritten_congr (s := writeTbl i v s) htbl (tblWritten_write i v s hw)
  | built _ _ _ _ _ _ _ htbl => exact tblWritten_of_full htbl
  | rejected _ _ _ _ _ _ _ htbl => exact tblWritten_congr htbl hw
  | computed _ _ _ _ _ _ _ htbl => exact tblWritten_congr htbl hw

end Sys2Proof.Machine

namespace Sys2Proof.Proofs

open Sys2Proof Sys2Proof.Machine

/-- Settles O7: a step is idle or the host's next action, and every action but the bare write goes on. -/
theorem everyStepGoesOn : Obligations.EveryStepGoesOn := by
  intro s
  cases hp : s.pending with
  | nil => exact .inl ⟨s, step_of_idle hp⟩
  | cons a rest =>
    rw [step_of_pending hp]
    obtain hnext | ⟨hrefused, v, rfl⟩ := hostAct_next_or_refused a (takeAction rest s)
    · exact .inl hnext
    · exact .inr ⟨hrefused, v, rest, rfl⟩

/-- Settles O8: the rows of the statement are the decoder's, and each outcome is read off its inversion. -/
theorem decoderFollowsTheOpcodeMap : Obligations.DecoderFollowsTheOpcodeMap := by
  intro cw data
  rw [rows_eq_map_row]
  simp only [List.forall_mem_map]
  refine ⟨fun hnone => ?reserved, fun o _ hop => ⟨fun hm => ?field, fun hm hnoData hd => ?len, fun hm hd => ?ok⟩⟩
  case reserved =>
    refine decode_eq_opcode_error.mpr (Option.eq_none_iff_forall_ne_some.mpr fun o ho => ?_)
    exact hnone o (mem_opAll o) (ofCode_some ho)
  case field => exact decode_eq_error.mpr (.inr ⟨o, hop, .inl ⟨rfl, hm⟩⟩)
  case len => exact decode_eq_error.mpr (.inr ⟨o, hop, .inr ⟨rfl, hm, by simpa [Op.row] using hnoData, hd⟩⟩)
  case ok =>
    have hlen : o.format.takesData = true ∨ data = [] := by
      cases htakes : o.format.takesData with
      | true => exact .inl rfl
      | false => exact .inr (hd (by rw [Op.row, htakes]; rfl))
    exact decode_eq_ok.mpr ⟨o, hop, hm, hlen, rfl⟩

/-- Settles O10: the step is the `H-ISSUE` at the head of the list, which rejects its word. -/
theorem rejectionWritesOnlyDoneAndErr : Obligations.RejectionWritesOnlyDoneAndErr := by
  intro s cw data rest e hp hd
  calc step s
    _ = hIssue cw data (takeAction rest s) := step_of_pending hp
    _ = .next (raiseErr e (takeAction rest s)) := hIssue_of_decode_error hd _
    _ = _ := by rw [raiseErr_eq_rejected]; rfl

/-- Settles O53: `TABLE16` and the others alike write the outcome of success. -/
theorem everyCommandCompletes : Obligations.EveryCommandCompletes := by
  intro i s
  obtain ⟨t, ht⟩ := exec_next i s
  refine ⟨t, ht, ?_⟩
  obtain ⟨_, -, -, hst, -⟩ | ⟨-, hst, -⟩ := exec_registers ht
  all_goals
    rw [hst]
    exact ⟨withOutcome_done _ _ _, withOutcome_err _ _ _⟩

/-- Settles O55: of the three shapes of a command only `CRCTBL` reads `TBL`, and over empty data it reads no entry. -/
theorem seventeenCommandsNeedNoTable : Obligations.SeventeenCommandsNeedNoTable := by
  intro i s hi
  obtain ⟨p, rfl, -⟩ | ⟨o, init, data, rfl, -⟩ | ⟨v, hnt, -, h⟩ := exec_cases i s
  · exact ⟨_, _, exec_table16 p _, exec_table16 p s, rfl, rfl, fun hp => absurd rfl (hp p), fun _ _ => rfl⟩
  · cases data with
    | nil =>
      exact ⟨_, _, exec_crctbl_frame o init [] _, exec_crctbl_frame o init [] s, rfl, rfl, fun _ => rfl,
        fun _ hp => by cases hp⟩
    | cons b rest => exact absurd rfl (hi o init b rest)
  · exact ⟨_, _, h _, h s, rfl, rfl, fun _ => rfl, fun p hp => absurd hp (hnt p)⟩

/-- Settles O56: `TABLE16` writes a table and `TORIENT` of its polynomial, `CRCTBL` ends at the register of the entries it indexes,
and the others write one value in every state. -/
theorem resultDependsOnCommandAndTableOnly : Obligations.ResultDependsOnCommandAndTableOnly := by
  intro i s₁ s₂ htbl
  obtain ⟨p, rfl, -⟩ | ⟨o, init, data, rfl, -⟩ | ⟨v, hnt, -, h⟩ := exec_cases i s₁
  · exact ⟨_, _, exec_table16 p s₁, exec_table16 p s₂, fun hp => absurd rfl (hp p),
      fun _ _ => ⟨rfl, (torient_doneTable s₁.status p).trans (torient_doneTable s₂.status p).symm⟩⟩
  · obtain ⟨hw, hagree⟩ := htbl o init data rfl
    exact ⟨_, _, exec_crctbl_frame o init data s₁, exec_crctbl_frame o init data s₂, fun _ => crcTbl_congr hw hagree,
      fun _ hp => by cases hp⟩
  · exact ⟨_, _, h s₁, h s₂, fun _ => rfl, fun p hp => absurd hp (hnt p)⟩

/-- Settles O58: no event but a reset takes an entry away, and a read of a written entry takes no free value. -/
theorem writtenTableIsSafeUntilReset : Obligations.WrittenTableIsSafeUntilReset := by
  intro s t hw hreset h
  have same := step_sameRun hw h
  exact ⟨step_tblWritten hw hreset h, same.runMark, same.freeCount⟩

/-- Settles O2: the step is the `H-RESET` at the head of the list. -/
theorem hostResetClearsTheUnit : Obligations.HostResetClearsTheUnit := fun _ _ hp => step_of_pending hp

/-- Settles O6: the idle case of a step. -/
theorem idleUnitStaysAsItIs : Obligations.IdleUnitStaysAsItIs := fun _ => step_of_idle

end Sys2Proof.Proofs
end
